-- ==== Sys2Proof/Word.lean ====
section
/-! DEFINITION. The values of the block: bytes, line levels, and the two 3-bit index types (R9, R10). A duration is a `Nat`
of microseconds (R9, D4). -/

namespace Sys2Proof

/-- An 8-bit value (R9). -/
abbrev Byte := BitVec 8

/-- A level of a line: `true` is 1, the high level, and `false` is 0, the low level (R9). -/
abbrev Level := Bool

/-- A digit slot 0..7, a 3-bit code equal to the slot number (R10, R77). -/
structure Slot where
  code : BitVec 3
  deriving DecidableEq, Repr

/-- A bit index 0..7 of a glyph byte; a type of its own, so that it cannot stand for a slot (R10). -/
structure BitIdx where
  code : BitVec 3
  deriving DecidableEq, Repr

/-- The host's glyph source `g : Slot -> Byte`, given by its eight bytes `g(0) .. g(7)` (R51, R82). -/
abbrev Glyphs := Vector Byte 8

end Sys2Proof
end

