-- ==== Sys2Proof/Config.lean ====
section
/-! DEFINITION. What an implementation fixes: the construction inputs of reset (R6, R214) and the platform
parameters that no rule of the block reads (R7). -/

namespace Sys2Proof

/-- The arguments of `RESET(P, T, TD, INIT_SLOT)` (R250): the host's construction inputs (R6, R214) and the platform
parameter INIT_SLOT with its default 7 (R7, D6). -/
structure Construction where
  pCfg      : Nat
  tShift    : Nat
  tDebounce : Nat
  initSlot  : Slot := ⟨7#3⟩
  deriving DecidableEq, Repr

/-- The construction behind `State.reset`: the example values of the spec's common setup (95_test_vectors.md).
DESIGN CHOICE, unsafe (log entry 3): P_CFG and T_SHIFT have no value in the spec and T_DEBOUNCE only a nominal
one; every statement holds for any construction. -/
def Config.commonSetup : Construction := { pCfg := 1000, tShift := 2, tDebounce := 50 }

/-- The seven segments of a digit and its decimal point (R79). -/
inductive Segment where
  | a | b | c | d | e | f | g | dp
  deriving DecidableEq, Repr

/-- The base symbols of the glyph table: the hexadecimal digits, blank and dash (R81). -/
inductive Symbol where
  | hex (digit : Fin 16)
  | blank
  | dash
  deriving DecidableEq, Repr

/-- The platform parameters that only the display model and the host read (R7). None has a value in the source but
DIGIT_MAP's default, the identity. Every function that reads one takes the platform as an argument, so that what is
stated holds for every board. The two proofs it carries are what R80 says of the table. -/
structure Platform where
  /-- DIGIT_MAP: the physical position that each select code lights (R212, D13). -/
  digitMap : BitVec 3 → BitVec 3 := id
  /-- SEG_ON_LEVEL: the output-stage level that lights a segment (R7, D15). -/
  segOnLevel : Level
  /-- SEG_WIRING: the shift-register output stage that drives each segment (R7, D15). -/
  segStage : Segment → BitIdx
  /-- The index layout of the glyph table: a symbol, with or without the decimal point, to its index (R81, D14). -/
  glyphIndex : Symbol → Bool → Nat
  /-- GLYPH_TABLE: index to byte, pure and total (R81, D14). -/
  glyphTable : Nat → Byte
  /-- The table's decimal-point variant of a symbol has the high-order decimal-point bit set (R80). -/
  pointBit : ∀ sym, (glyphTable (glyphIndex sym true)).getLsbD 7 = true
  /-- It is the base glyph with that bit set, when the base glyph has it clear (R80). -/
  pointVariant : ∀ sym, (glyphTable (glyphIndex sym false)).getLsbD 7 = false →
    glyphTable (glyphIndex sym true) = glyphTable (glyphIndex sym false) ||| 0x80#8
  /-- DUR_W: the width of a duration in a hardware realization (R7, D4). -/
  durW : Nat

end Sys2Proof
end

