-- ==== Sys2Proof/Syntax.lean ====
section
/-! DEFINITION. The commands of the block, each with the operand it takes from an input port (R71, R72). -/

namespace Sys2Proof

/-- The four commands (R71). The operand a command carries is the one its input ports hold in the same
transaction (R72); the command word itself has no fields (R70). DESIGN CHOICE (log entry 1): the operand is an
argument of the constructor, which is exact. -/
inductive Instr where
  /-- `NOP` (R160). -/
  | nop
  /-- `MUX.STEP g` (R102), `g` the glyph source of R51. -/
  | muxStep (g : Glyphs)
  /-- `MUX.ADV` (R104). -/
  | muxAdv
  /-- `KEY.SCAN keys` (R141), `keyN` the four input levels `KEY_N[3:0]` of R72. -/
  | keyScan (keyN : BitVec 4)
  deriving DecidableEq, Repr

end Sys2Proof
end

