-- ==== Sys2Proof/WellFormed.lean ====
section
/-! DEFINITION. Well-formed commands, constructions and realizations. -/

namespace Sys2Proof

/-- Every command is well formed: all four words are defined and an operand value is never illegal (R73). -/
def Instr.wellFormed (i : Instr) : Bool :=
  match i with
  | .nop => true
  | .muxStep _ => true
  | .muxAdv => true
  | .keyScan _ => true

/-- A configuration is well formed when `P_CFG > 9 * T_SHIFT` (R201). T_DEBOUNCE takes no part. -/
def Construction.wellFormed (c : Construction) : Bool := decide (c.pCfg > 9 * c.tShift)

/-- A realization's durations are wide enough for a construction: DUR_W is at least the width of P_CFG (R7, D4).
DESIGN CHOICE: nothing is asked of T_DEBOUNCE, so KEY_WAIT may not fit a width that is accepted (log entry 19). -/
def Platform.realizes (p : Platform) (c : Construction) : Bool := decide (c.pCfg < 2 ^ p.durW)

end Sys2Proof
end

