-- ==== Sys2Proof/Decode.lean ====
section
/-! DEFINITION. The transaction a host presents (R70, R72), its decoding and encoding (R71), and the encoding of a
program as words with an operand list (R84). -/

namespace Sys2Proof

/-- One host transaction: the 2-bit word `CMD[1:0]` and the two operand ports (R70, R72). A port that the command does
not use is not read. -/
structure Transaction where
  cmd   : BitVec 2
  glyph : Glyphs
  keyN  : BitVec 4
  deriving DecidableEq, Repr

/-- An operand as a program lists it beside its command word (R84). -/
inductive Operand where
  | glyphs (g : Glyphs)
  | keys (keyN : BitVec 4)
  deriving DecidableEq, Repr

/-- Why a word or a program is not decoded. -/
inductive DecodeError where
  /-- A number that is not a 2-bit word (R70; log entry 13). -/
  | notACommandWord
  /-- A command that takes an operand has none listed (R72, R84). -/
  | missingOperand
  /-- The operand listed is of the other command's form (R72). -/
  | wrongOperand
  /-- An operand is listed that no command takes (R84). -/
  | surplusOperand
  deriving DecidableEq, Repr

/-- The glyph port at all zeros. -/
def idleGlyphs : Glyphs := Vector.replicate 8 0#8

/-- The decoder: total, each of the four words selects one command (R71, R73). -/
def decode (t : Transaction) : Instr :=
  match t.cmd.toFin with
  | 0 => .nop
  | 1 => .muxStep t.glyph
  | 2 => .muxAdv
  | 3 => .keyScan t.keyN

/-- The command word of a command (R71). -/
def commandWord (i : Instr) : BitVec 2 :=
  match i with
  | .nop => 0b00#2
  | .muxStep _ => 0b01#2
  | .muxAdv => 0b10#2
  | .keyScan _ => 0b11#2

/-- The operand a command takes (R72). -/
def operandOf (i : Instr) : Option Operand :=
  match i with
  | .nop => none
  | .muxStep g => some (.glyphs g)
  | .muxAdv => none
  | .keyScan k => some (.keys k)

/-- The glyph port of a command's transaction: its operand, or zeros where it takes none (R72). -/
def glyphPort (i : Instr) : Glyphs :=
  match operandOf i with
  | some (.glyphs g) => g
  | _ => idleGlyphs

/-- The key port of a command's transaction: its operand, or zeros where it takes none (R72). -/
def keyPort (i : Instr) : BitVec 4 :=
  match operandOf i with
  | some (.keys k) => k
  | _ => 0#4

/-- The transaction that issues a command (R70, R72). -/
def encode (i : Instr) : Transaction :=
  { cmd := commandWord i, glyph := glyphPort i, keyN := keyPort i }

/-- A number as a command word: only the numbers 0..3 are one (R70; log entry 13). -/
def wordOfNat (w : Nat) : Except DecodeError (BitVec 2) :=
  if w < 4 then .ok (BitVec.ofNat 2 w) else .error .notACommandWord

/-- The transaction of a bare table word: the operand ports are at zero. -/
def transactionOfWord (w : Nat) : Except DecodeError Transaction :=
  (wordOfNat w).map fun c => { cmd := c, glyph := idleGlyphs, keyN := 0#4 }

/-- The instruction the decoder reads from the opcode table's word `w`, its operand ports at zero. -/
def decodeTableWord (nbits w : Nat) : Option Instr :=
  match transactionOfWord (w % 2 ^ nbits) with
  | .ok t => some (decode t)
  | .error _ => none

/-- A program's command words, in order (R84). -/
def programWords (p : List Instr) : List (BitVec 2) := p.map commandWord

/-- A program's operands, each listed in the order of its command (R84). -/
def programOperands (p : List Instr) : List Operand := p.filterMap operandOf

/-- Reads one word's command, taking its operand from the front of the list where it takes one (R71, R72). -/
def decodeWith (w : BitVec 2) (ops : List Operand) : Except DecodeError (Instr × List Operand) :=
  match w.toFin with
  | 0 => .ok (.nop, ops)
  | 1 => match ops with
    | .glyphs g :: rest => .ok (.muxStep g, rest)
    | .keys _ :: _ => .error .wrongOperand
    | [] => .error .missingOperand
  | 2 => .ok (.muxAdv, ops)
  | 3 => match ops with
    | .keys k :: rest => .ok (.keyScan k, rest)
    | .glyphs _ :: _ => .error .wrongOperand
    | [] => .error .missingOperand

/-- Reads a program back from its words and its operand list (R84). -/
def decodeProgram (ws : List (BitVec 2)) (ops : List Operand) : Except DecodeError (List Instr) :=
  match ws with
  | [] => if ops.isEmpty then .ok [] else .error .surplusOperand
  | w :: rest =>
    match decodeWith w ops with
    | .error e => .error e
    | .ok (i, left) => (decodeProgram rest left).map (i :: ·)

end Sys2Proof
end

