-- ==== Sys2Proof/Machine/State.lean ====
section
/-! DEFINITION. The state of the block (R20), the line trace and the results it has returned (R58, R216), the device
models on its lines (R210, R211), the host's pending actions and record (R214, R254), and the reset state (R250). -/

namespace Sys2Proof.Machine

/-- The four push-buttons, in the priority order S2 < S3 < S4 < S5 (R10, R140). -/
inductive Key where
  | s2 | s3 | s4 | s5
  deriving DecidableEq, Repr

/-- The refresh phase (R10, R22). PHASE holds its 4-bit code (R75). -/
inductive Phase where
  | serializing (b : BitIdx)
  | latching
  | settled
  deriving DecidableEq, Repr

/-- The three single output lines: serial data, shift-clock, latch-clock (R11). -/
inductive Line where
  | data | sck | lck
  deriving DecidableEq, Repr

/-- One write of an output line; the three select lines change in one event (R55, R58). -/
inductive LineEvent where
  | line (l : Line) (v : Level)
  | sel (v : BitVec 3)
  deriving DecidableEq, Repr

/-- The direction of a change of level (R58). -/
inductive Edge where
  | rising | falling
  deriving DecidableEq, Repr

/-- The levels of the six output lines. -/
structure Lines where
  data : Level
  sck  : Level
  lck  : Level
  sel  : BitVec 3
  deriving DecidableEq, Repr

/-- Eight stages `[0..7]` of the external register, each a bit or unknown (⊥, here `none`) (R210, R211). -/
structure Stages where
  s0 : Option Level
  s1 : Option Level
  s2 : Option Level
  s3 : Option Level
  s4 : Option Level
  s5 : Option Level
  s6 : Option Level
  s7 : Option Level
  deriving DecidableEq, Repr

/-- Stages whose content is unknown: power-up, and every reset (R210, R211, R252). -/
def Stages.unknown : Stages := ⟨none, none, none, none, none, none, none, none⟩

/-- The external shift register SR and its output stage OUT (R210, R211). -/
structure Devices where
  sr  : Stages
  out : Stages
  deriving DecidableEq, Repr

/-- The duties of R214 whose breaking the host's record can see (log entry 12). -/
inductive Duty where
  /-- A MUX command was issued before the returned minimum delay had passed (R254). -/
  | minimumDelay
  /-- MUX.STEP and MUX.ADV did not alternate, starting with MUX.STEP (R255). -/
  | alternation
  /-- The glyph byte of a digit changed between its Serializing steps (R260); a duty only for a host that wants a
  whole glyph (log entry 12). -/
  | glyphStability
  deriving DecidableEq, Repr

/-- What the host does next (R214; log entry 2). -/
inductive HostAction where
  /-- Reset, the block's construction (R250). -/
  | reset (c : Construction)
  /-- Issue a command once the previous one has completed, its debounce pause included (R59). -/
  | issue (t : Transaction)
  /-- Let at least `n` microseconds pass and issue a command before the last KEY.SCAN has completed, so during its
  debounce pause where it confirmed a press (R206, R256; log entry 11). -/
  | duringPause (n : Nat) (t : Transaction)
  /-- Let `n` microseconds pass: the `WAIT n` directive (R82). -/
  | wait (n : Nat)
  /-- Let MUX_DELAY microseconds pass: the `WAIT MUX_DELAY` of `MUX.TICK` (R83). -/
  | waitMuxDelay
  deriving DecidableEq, Repr

/-- The host's side: its pending actions and its record of what it owes and has broken. No rule of the block reads it.
DESIGN CHOICE (log entries 2, 10, 12). -/
structure HostSide where
  /-- Actions the host has yet to take, the next one first. -/
  pending : List HostAction
  /-- Microseconds still owed before the next MUX command (R254). -/
  owed : Nat
  /-- Whether the last MUX command was MUX.STEP, so that MUX.ADV is due (R255). -/
  advNext : Bool
  /-- Whether the last KEY.SCAN is still in its debounce pause (R206). -/
  scanning : Bool
  /-- Microseconds of that pause that are certain to pass and not yet counted (R141, R262; log entry 10). -/
  pause : Nat
  /-- The byte passed at the first Serializing step of the current digit (R260). -/
  digitGlyph : Option Byte
  /-- The WAIT record, oldest first (R202, R254). -/
  waits : List Nat
  /-- The ProtocolViolation marks, oldest first (R203). -/
  violations : List Duty
  deriving DecidableEq, Repr

/-- The host right after a reset, with the actions it has yet to take. -/
def HostSide.fresh (pending : List HostAction) : HostSide :=
  { pending := pending, owed := 0, advNext := false, scanning := false, pause := 0, digitGlyph := none,
    waits := [], violations := [] }

/-- Why the machine stops with a fault (R203). -/
inductive Fault where
  /-- PHASE holds a code 10..15 (R75). Raised by MUX.STEP and MUX.ADV, the commands that read PHASE. Safe: no run from
  reset reaches such a code. -/
  | unreachablePhase
  /-- A key register holds a code 001, 010 or 011 (R76). Raised by KEY.SCAN, which reads LATCHED, and by the host's
  reading of KEY_EVT. Safe: no run from reset reaches such a code. -/
  | unreachableKeyCode
  deriving DecidableEq, Repr

/-- Why the model gives no meaning (R203). -/
inductive Refusal where
  /-- An instruction whose meaning is not modelled yet. Raised by an arm of `exec` only; no arm does. Safe. -/
  | notModelled (mnemonic : String)
  /-- The configuration is not well formed (R201). Raised by reset, before any command. Safe: nothing is claimed about
  a badly configured block. -/
  | badPeriod
  /-- A KEY command is issued during the debounce pause of another: the run has no meaning (R206, I14). Raised by the
  host action `duringPause`. Safe. -/
  | protocolViolation
  deriving DecidableEq, Repr

/-- The machine. The first fourteen fields are the block's state record (R20); then what a claim observes (R216), the
devices on the lines, and the host. -/
structure State where
  /-- SLOT (R21). -/
  slot : Slot
  /-- PHASE, the 4-bit code of R75 (R22). -/
  phase : BitVec 4
  /-- DATA (R23). -/
  data : Level
  /-- SCK (R24). -/
  sck : Level
  /-- LCK (R25). -/
  lck : Level
  /-- SEL (R26). -/
  sel : BitVec 3
  /-- MUX_DELAY (R27). -/
  muxDelay : Nat
  /-- LATCHED, the 3-bit code of R76 (R28). -/
  latched : BitVec 3
  /-- KEY_EVT, the 3-bit code of R76 (R29). -/
  keyEvt : BitVec 3
  /-- KEY_WAIT (R30). -/
  keyWait : Nat
  /-- P_CFG (R31). -/
  pCfg : Nat
  /-- T_SHIFT (R32). -/
  tShift : Nat
  /-- SETTLE (R33). -/
  settle : Nat
  /-- T_DEBOUNCE (R34). -/
  tDebounce : Nat
  /-- The line-event trace since reset, oldest first (R58, R252). -/
  trace : List LineEvent
  /-- What each MUX.STEP since reset returned, oldest first (R216; log entry 7). -/
  muxReturns : List Nat
  /-- What each KEY.SCAN since reset returned, with its wait, oldest first (R216; log entry 7). -/
  keyReturns : List (Option Key × Nat)
  /-- SHIFT_EDGE of the attached register (R7, R210). -/
  shiftEdge : Edge
  /-- The attached register's stages (R210, R211). -/
  dev : Devices
  /-- The host (R214). -/
  host : HostSide
  deriving DecidableEq, Repr

/-- The levels the block holds on its six output lines. -/
def State.lines (s : State) : Lines := { data := s.data, sck := s.sck, lck := s.lck, sel := s.sel }

/-- The state right after `RESET(P_CFG, T_SHIFT, T_DEBOUNCE, INIT_SLOT)` of R250 with the construction
`Config.commonSetup` (DESIGN CHOICE, unsafe: log entry 3) and SHIFT_EDGE at its default (R7); the host has nothing
pending (log entry 2). -/
def State.reset : State where
  slot := Config.commonSetup.initSlot
  phase := 0b1001#4
  data := false
  sck := false
  lck := false
  sel := 0b000#3
  muxDelay := 0
  latched := 0b000#3
  keyEvt := 0b000#3
  keyWait := 0
  pCfg := Config.commonSetup.pCfg
  tShift := Config.commonSetup.tShift
  settle := Config.commonSetup.pCfg - 9 * Config.commonSetup.tShift
  tDebounce := Config.commonSetup.tDebounce
  trace := []
  muxReturns := []
  keyReturns := []
  shiftEdge := .rising
  dev := { sr := .unknown, out := .unknown }
  host := .fresh []

end Sys2Proof.Machine
end

