-- ==== Sys2Proof/Machine/Operands.lean ====
section
/-! DEFINITION. Operand forms, the codes of PHASE and of the key registers, and the fixed functions on slots, phases and
keys (R72, R75 to R80, R100, R101, R140). -/

namespace Sys2Proof.Machine

/-- `succ_slot`, the cyclic successor of a slot: it wraps from 7 to 0 (R100). -/
def succSlot (d : Slot) : Slot := ⟨d.code + 1⟩

/-- `sel_code`: the select code of a slot is its number, most significant bit first (R78). -/
def selCode (d : Slot) : BitVec 3 := d.code

/-- The glyph byte the host supplies for a slot, `g(s)` (R11, R51). -/
def glyphAt (g : Glyphs) (d : Slot) : Byte := g.get d.code.toFin

/-- The data bit `g(SLOT)[b]`, bit 0 the least significant (R9, R52, R74). -/
def glyphBit (g : Glyphs) (d : Slot) (b : BitIdx) : Level := (glyphAt g d).getLsbD b.code.toNat

/-- `reverse8`: the byte whose bit i is bit 7-i of the argument (R9). -/
def reverse8 (v : Byte) : Byte := v.reverse

/-- The code of a phase in PHASE (R75). -/
def phaseCode (p : Phase) : BitVec 4 :=
  match p with
  | .serializing b => b.code.setWidth 4
  | .latching => 0b1000#4
  | .settled => 0b1001#4

/-- The phase a code stands for; none for the codes 10..15 (R75). -/
def phaseOf (c : BitVec 4) : Option Phase :=
  if c.toNat < 8 then some (.serializing ⟨c.setWidth 3⟩)
  else if c = 0b1000#4 then some .latching
  else if c = 0b1001#4 then some .settled
  else none

/-- `next_phase`, the phase successor (R101). -/
def nextPhase (p : Phase) : Phase :=
  match p with
  | .serializing b => if b.code = 7#3 then .latching else .serializing ⟨b.code + 1⟩
  | .latching => .settled
  | .settled => .serializing ⟨0#3⟩

/-- A key's ordinal, the `code` part of a key register (R76). -/
def keyOrdinal (k : Key) : BitVec 2 :=
  match k with
  | .s2 => 0#2
  | .s3 => 1#2
  | .s4 => 2#2
  | .s5 => 3#2

/-- The key of an ordinal (R76). -/
def keyOfOrdinal (c : BitVec 2) : Key :=
  match c.toFin with
  | 0 => .s2
  | 1 => .s3
  | 2 => .s4
  | 3 => .s5

/-- The code `{valid, code[1:0]}` of LATCHED and KEY_EVT (R76). -/
def keyCode (k : Option Key) : BitVec 3 :=
  match k with
  | none => 0b000#3
  | some k => 0b1#1 ++ keyOrdinal k

/-- What a code of LATCHED or KEY_EVT stands for; the outer none for the codes 001, 010 and 011 (R76). -/
def keyOf (c : BitVec 3) : Option (Option Key) :=
  if c.getLsbD 2 then some (some (keyOfOrdinal (c.setWidth 2)))
  else if c = 0b000#3 then some none
  else none

/-- `sample(k)`: the level of a key's input line, `KEY_N[idx(k)]` (R72). -/
def sample (keyN : BitVec 4) (k : Key) : Level := keyN.getLsbD (keyOrdinal k).toNat

/-- The first key of a list whose line is asserted, that is low. -/
def firstAsserted (keyN : BitVec 4) (ks : List Key) : Option Key :=
  ks.find? fun k => sample keyN k == false

/-- `first_pressed`: the first asserted key in the fixed priority order S2, S3, S4, S5 (R140). -/
def firstPressed (keyN : BitVec 4) : Option Key := firstAsserted keyN [.s2, .s3, .s4, .s5]

/-- `dp_variant`: the glyph with its decimal-point bit set (R80). -/
def dpVariant (v : Byte) : Byte := v ||| 0x80#8

/-- The glyph bit of a segment: bit 0 is A and bit 7 the decimal point (R79). PRESUMED, unsafe: B to G in bits 1 to 6 is
general knowledge in the spec's own words (R79, I19; log entry 14). -/
def segmentBit (seg : Segment) : BitIdx :=
  match seg with
  | .a => ⟨0#3⟩
  | .b => ⟨1#3⟩
  | .c => ⟨2#3⟩
  | .d => ⟨3#3⟩
  | .e => ⟨4#3⟩
  | .f => ⟨5#3⟩
  | .g => ⟨6#3⟩
  | .dp => ⟨7#3⟩

/-- A segment's on/off mask bit in a glyph byte (R79). -/
def segmentMask (v : Byte) (seg : Segment) : Level := v.getLsbD (segmentBit seg).code.toNat

end Sys2Proof.Machine
end

