-- ==== Sys2Proof/Machine/Environment.lean ====
section
/-! DEFINITION. Line events and edges (R58) and the device models that see them: the shift register (R210), its output
stage (R211), and what the selected digit shows (R212). The devices are outside the block; no rule of it reads them. -/

namespace Sys2Proof.Machine

/-- The level of one of the three single lines. -/
def Lines.level (ln : Lines) (l : Line) : Level :=
  match l with
  | .data => ln.data
  | .sck => ln.sck
  | .lck => ln.lck

/-- The levels after an event (R11). -/
def Lines.after (ln : Lines) (e : LineEvent) : Lines :=
  match e with
  | .line .data v => { ln with data := v }
  | .line .sck v => { ln with sck := v }
  | .line .lck v => { ln with lck := v }
  | .sel v => { ln with sel := v }

/-- The edge of a write: none when the level stays (R58). -/
def edgeOf (old new : Level) : Option Edge :=
  match old, new with
  | false, true => some .rising
  | true, false => some .falling
  | false, false => none
  | true, true => none

/-- Whether an event changes a level (R58); for the select lines, any of the three. -/
def LineEvent.isEdge (ln : Lines) (e : LineEvent) : Bool :=
  match e with
  | .line l v => (edgeOf (ln.level l) v).isSome
  | .sel v => v != ln.sel

/-- The edges of one line in a trace that starts from given levels, in order (R58). -/
def edgesOn (l : Line) (ln : Lines) (tr : List LineEvent) : List Edge :=
  match tr with
  | [] => []
  | e :: rest =>
    let more := edgesOn l (ln.after e) rest
    match e with
    | .line l' v => if l' = l then (edgeOf (ln.level l) v).toList ++ more else more
    | .sel _ => more

/-- How many events of a trace are edges (R58). -/
def edgeCount (ln : Lines) (tr : List LineEvent) : Nat :=
  match tr with
  | [] => 0
  | e :: rest => (if e.isEdge ln then 1 else 0) + edgeCount (ln.after e) rest

/-- The content of a stage. -/
def Stages.at (st : Stages) (i : BitIdx) : Option Level :=
  match i.code.toFin with
  | 0 => st.s0
  | 1 => st.s1
  | 2 => st.s2
  | 3 => st.s3
  | 4 => st.s4
  | 5 => st.s5
  | 6 => st.s6
  | 7 => st.s7

/-- A shift toward the higher stages that takes a level into stage 0 (R210). -/
def Stages.shiftIn (st : Stages) (v : Level) : Stages :=
  ⟨some v, st.s0, st.s1, st.s2, st.s3, st.s4, st.s5, st.s6⟩

/-- The stages that hold a byte: stage i is bit i (R115). -/
def Stages.ofByte (v : Byte) : Stages :=
  ⟨some (v.getLsbD 0), some (v.getLsbD 1), some (v.getLsbD 2), some (v.getLsbD 3),
   some (v.getLsbD 4), some (v.getLsbD 5), some (v.getLsbD 6), some (v.getLsbD 7)⟩

/-- The devices after an event, given the levels before it. An edge of SCK equal to SHIFT_EDGE shifts in the DATA level
held at that moment (R210); a rising edge of LCK copies the stages to the output stage, and its falling edge changes
nothing (R211). The hold time is taken as met (R259; log entry 8). -/
def Devices.see (edge : Edge) (ln : Lines) (e : LineEvent) (d : Devices) : Devices :=
  match e with
  | .line .sck v => if edgeOf ln.sck v = some edge then { d with sr := d.sr.shiftIn ln.data } else d
  | .line .lck v => if edgeOf ln.lck v = some .rising then { d with out := d.sr } else d
  | .line .data _ => d
  | .sel _ => d

/-- The levels and the devices after a trace, run from the first event on (R216). -/
def replay (edge : Edge) (ln : Lines) (d : Devices) (tr : List LineEvent) : Lines × Devices :=
  match tr with
  | [] => (ln, d)
  | e :: rest => replay edge (ln.after e) (d.see edge ln e) rest

/-- The output levels a reset leaves (R250), where the trace starts (R252). -/
def resetLines : Lines := { data := false, sck := false, lck := false, sel := 0#3 }

/-- The devices a reset leaves: unknown (R252). -/
def unknownDevices : Devices := { sr := .unknown, out := .unknown }

/-- The physical position the select lines pick, `DIGIT_MAP(SEL)` (R212). -/
def State.selectedPosition (p : Platform) (s : State) : BitVec 3 := p.digitMap s.sel

/-- Whether OUT holds SEG_ON_LEVEL at the stage wired to a segment; none while that stage is unknown (R212). It says
what the output stage holds, not whether or how brightly the digit is lit (R211, D28; log entry 15). -/
def State.segmentOn (p : Platform) (s : State) (seg : Segment) : Option Bool :=
  (s.dev.out.at (p.segStage seg)).map (· == p.segOnLevel)

/-- The glyph table's byte for a symbol, with or without its decimal point (R81; log entry 16). -/
def glyphOf (p : Platform) (sym : Symbol) (point : Bool) : Byte := p.glyphTable (p.glyphIndex sym point)

/-- The glyph operand a host builds from the table, one symbol for each slot (R38, R81). -/
def glyphsFor (p : Platform) (text : Vector (Symbol × Bool) 8) : Glyphs :=
  text.map fun x => glyphOf p x.1 x.2

end Sys2Proof.Machine
end

