-- ==== Sys2Proof/Machine/Flags.lean ====
section
/-! DEFINITION. The block has no status flags and no condition codes, and no command sets one (R36). What the host can
test is whether KEY_EVT is `Some`. -/

namespace Sys2Proof.Machine

/-- The host's reading of KEY_EVT; an unreachable code is a fault (R29, R76). -/
def State.readKeyEvt (s : State) : Except Fault (Option Key) :=
  match keyOf s.keyEvt with
  | some e => .ok e
  | none => .error .unreachableKeyCode

/-- Whether KEY_EVT is `Some`, the one Boolean the host can read (R36). -/
def State.keyEventPresent (s : State) : Except Fault Bool := s.readKeyEvt.map Option.isSome

end Sys2Proof.Machine
end

