-- ==== Sys2Proof/Machine/Ops.lean ====
section
/-! DEFINITION. The named operations every command is made of (R11): writing a state element, driving a line, returning
a result, and reset (R250). The block has no memory (R50), and takes no exception and returns from none (R200, R206),
so there is no operation for either. -/

namespace Sys2Proof.Machine

/-- Records a line event: the line takes its level, the trace gains the event and the devices see it (R11, R58). -/
def State.emit (e : LineEvent) (s : State) : State :=
  { s with
    data := (s.lines.after e).data
    sck := (s.lines.after e).sck
    lck := (s.lines.after e).lck
    sel := (s.lines.after e).sel
    trace := s.trace ++ [e]
    dev := s.dev.see s.shiftEdge s.lines e }

/-- `line(L) <- v` (R11). -/
def State.drive (l : Line) (v : Level) (s : State) : State := s.emit (.line l v)

/-- `sel <- v`: the three select lines together, one event (R11, R55). -/
def State.driveSel (v : BitVec 3) (s : State) : State := s.emit (.sel v)

/-- Ends a MUX.STEP with its minimum delay (R27, R102). -/
def State.returnDelay (d : Nat) (s : State) : State :=
  { s with muxDelay := d, muxReturns := s.muxReturns ++ [d] }

/-- Ends a KEY.SCAN with its event and its debounce wait (R29, R30, R141). -/
def State.returnKey (e : Option Key) (w : Nat) (s : State) : State :=
  { s with keyEvt := keyCode e, keyWait := w, keyReturns := s.keyReturns ++ [(e, w)] }

/-- `LATCHED <- k` (R28). -/
def State.writeLatched (k : Option Key) (s : State) : State := { s with latched := keyCode k }

/-- `PHASE <- p` (R22). -/
def State.writePhase (p : Phase) (s : State) : State := { s with phase := phaseCode p }

/-- `SLOT <- d` (R21). -/
def State.writeSlot (d : Slot) (s : State) : State := { s with slot := d }

/-- A state whose host side is another. -/
def State.withHost (h : HostSide) (s : State) : State := { s with host := h }

/-- The state `RESET` leaves (R250): the block from its construction, an empty trace and unknown devices (R252), the
host's record new and its actions still pending. The attached register, so SHIFT_EDGE, stays (log entry 9). -/
def State.constructed (c : Construction) (edge : Edge) (pending : List HostAction) : State where
  slot := c.initSlot
  phase := phaseCode .settled
  data := false
  sck := false
  lck := false
  sel := 0b000#3
  muxDelay := 0
  latched := keyCode none
  keyEvt := keyCode none
  keyWait := 0
  pCfg := c.pCfg
  tShift := c.tShift
  settle := c.pCfg - 9 * c.tShift
  tDebounce := c.tDebounce
  trace := []
  muxReturns := []
  keyReturns := []
  shiftEdge := edge
  dev := unknownDevices
  host := .fresh pending

/-- `RESET(P, T, TD, INIT_SLOT)`: a construction that is not well formed is refused (R201, R250). -/
def State.resetTo (c : Construction) (s : State) : Host.Outcome State Fault Refusal :=
  if c.wellFormed then .next (State.constructed c s.shiftEdge s.host.pending) else .refused .badPeriod

end Sys2Proof.Machine
end

