-- ==== Sys2Proof/Machine/DisplayMux.lean ====
section
/-! DEFINITION. The two commands of the Display Multiplexer (R102, R104). -/

namespace Sys2Proof.Machine

/-- The Serializing case of MUX.STEP: shift-clock up, data bit, shift-clock down; the result is T_SHIFT (R102). -/
def serializeStep (g : Glyphs) (b : BitIdx) (s : State) : State :=
  (((s.drive .sck true).drive .data (glyphBit g s.slot b)).drive .sck false).returnDelay s.tShift

/-- The Latching case of MUX.STEP: shift-clock up, select lines, latch-clock up; the result is T_SHIFT (R102). -/
def latchStep (s : State) : State :=
  (((s.drive .sck true).driveSel (selCode s.slot)).drive .lck true).returnDelay s.tShift

/-- The Settled case of MUX.STEP: latch-clock down; the result is SETTLE (R102). -/
def settleStep (s : State) : State := (s.drive .lck false).returnDelay s.settle

/-- `MUX.STEP g`: act under the current phase and return the minimum delay (R102). PHASE and SLOT are not written
(conflict C9). A PHASE code that stands for no phase is a fault (R75; log entry 6). -/
def execMuxStep (g : Glyphs) (s : State) : Host.Outcome State Fault Refusal :=
  match phaseOf s.phase with
  | some (.serializing b) => .next (serializeStep g b s)
  | some .latching => .next (latchStep s)
  | some .settled => .next (settleStep s)
  | none => .fault .unreachablePhase

/-- `MUX.ADV`: move to the next phase; the slot advances only when PHASE was Settled (R104). No result, no line event.
A PHASE code that stands for no phase is a fault (R75; log entry 6). -/
def execMuxAdv (s : State) : Host.Outcome State Fault Refusal :=
  match phaseOf s.phase with
  | some p =>
    .next ((if p = .settled then s.writeSlot (succSlot s.slot) else s).writePhase (nextPhase p))
  | none => .fault .unreachablePhase

end Sys2Proof.Machine
end

