-- ==== Sys2Proof/Machine/Idle.lean ====
section
/-! DEFINITION. The idle command (R160). -/

namespace Sys2Proof.Machine

/-- `NOP`: no state written, no line event (R160). -/
def execNop (s : State) : Host.Outcome State Fault Refusal := .next s

end Sys2Proof.Machine
end

