-- ==== Sys2Proof/Machine/KeyScanner.lean ====
section
/-! DEFINITION. The command of the Key Scanner (R141). -/

namespace Sys2Proof.Machine

/-- KEY.SCAN with a key latched: only that key's line is sampled; if it reads released the latch is cleared; either way
the result is None (R141). -/
def scanLatched (k : Key) (keyN : BitVec 4) (s : State) : State :=
  (if sample keyN k then s.writeLatched none else s).returnKey none 0

/-- KEY.SCAN with nothing latched: the first asserted key, if any, is latched and reported after the debounce pause
(R141). The lines are not sampled again (R146). -/
def scanUnlatched (keyN : BitVec 4) (s : State) : State :=
  match firstPressed keyN with
  | some k => (s.writeLatched (some k)).returnKey (some k) s.tDebounce
  | none => s.returnKey none 0

/-- `KEY.SCAN keys` (R141). A LATCHED code that stands for nothing is a fault (R76; log entry 6). -/
def execKeyScan (keyN : BitVec 4) (s : State) : Host.Outcome State Fault Refusal :=
  match keyOf s.latched with
  | some (some k) => .next (scanLatched k keyN s)
  | some none => .next (scanUnlatched keyN s)
  | none => .fault .unreachableKeyCode

end Sys2Proof.Machine
end

