-- ==== Sys2Proof/Machine/Dispatch.lean ====
section
/-! DEFINITION. The dispatch: one arm for each command (R71). -/

namespace Sys2Proof.Machine

def exec (i : Instr) (s : State) : Host.Outcome State Fault Refusal :=
  match i with
  | .nop => Sys2Proof.Machine.execNop s
  | .muxStep g => Sys2Proof.Machine.execMuxStep g s
  | .muxAdv => Sys2Proof.Machine.execMuxAdv s
  | .keyScan keyN => Sys2Proof.Machine.execKeyScan keyN s

end Sys2Proof.Machine
end

