-- ==== Sys2Proof/Machine/HostSide.lean ====
section
/-! DEFINITION. The host's actions (R214) and its record of the duties it owes (R254, R255, R256, R260). The record never
reaches the block: a broken duty changes no block state (R202, R257). -/

namespace Sys2Proof.Machine

/-- At least `n` microseconds pass: what the host owes and what is left of the debounce pause shrink (R254, R206; log
entry 10). -/
def HostSide.elapse (n : Nat) (h : HostSide) : HostSide :=
  { h with owed := h.owed - n, pause := h.pause - n }

/-- The debounce pause in progress runs to its end; what is not yet counted of it counts toward an owed wait
(R262; log entry 10). -/
def HostSide.finishPause (h : HostSide) : HostSide := { h.elapse h.pause with scanning := false }

/-- A WAIT: its time passes, and the record gains it (R82). -/
def HostSide.noteWait (n : Nat) (h : HostSide) : HostSide :=
  { h.elapse n with waits := h.waits ++ [n] }

/-- A ProtocolViolation mark, where a duty is broken (R203). -/
def HostSide.markIf (broken : Bool) (d : Duty) (h : HostSide) : HostSide :=
  if broken then { h with violations := h.violations ++ [d] } else h

/-- Whether the byte of the current slot differs from the one the digit's first Serializing step was given (R260). -/
def glyphChanged (g : Glyphs) (s : State) : Bool :=
  match phaseOf s.phase, s.host.digitGlyph with
  | some (.serializing _), some x => x != glyphAt g s.slot
  | _, _ => false

/-- The byte the record keeps for the digit after a MUX.STEP: the first one passed while serializing it (R260). -/
def digitGlyphAfterStep (g : Glyphs) (s : State) : Option Byte :=
  match phaseOf s.phase, s.host.digitGlyph with
  | some (.serializing _), none => some (glyphAt g s.slot)
  | _, x => x

/-- The byte the record keeps after a MUX.ADV: none once the slot has moved on (R104, R260). -/
def digitGlyphAfterAdv (s : State) : Option Byte :=
  if phaseOf s.phase = some .settled then none else s.host.digitGlyph

/-- The record as a command is issued: the duties it breaks are marked (R254, R255, R260; log entry 12). -/
def noteBefore (i : Instr) (s : State) : HostSide :=
  match i with
  | .nop => s.host
  | .keyScan _ => s.host
  | .muxStep g =>
    { ((s.host.markIf (s.host.owed != 0) .minimumDelay).markIf s.host.advNext .alternation).markIf
        (glyphChanged g s) .glyphStability with
      advNext := true, digitGlyph := digitGlyphAfterStep g s }
  | .muxAdv =>
    { (s.host.markIf (s.host.owed != 0) .minimumDelay).markIf (!s.host.advNext) .alternation with
      owed := 0, advNext := false, digitGlyph := digitGlyphAfterAdv s }

/-- The record once a command has answered. A MUX.STEP's delay is owed (R254); where it was issued in a debounce pause,
an unknown part of the pause had already run, so none of it is certain to pass from then on (log entry 10). A confirming
KEY.SCAN's pause is in progress (R206, R256). DESIGN CHOICE: with T_DEBOUNCE 0 it has no pause and has completed at once,
although R141 and D17 say only that it takes at least T_DEBOUNCE (log entry 18). -/
def noteAfter (i : Instr) (s : State) : HostSide :=
  match i with
  | .nop => s.host
  | .muxAdv => s.host
  | .muxStep _ => { s.host with owed := s.muxDelay, pause := 0 }
  | .keyScan _ => { s.host with pause := s.keyWait, scanning := s.keyWait != 0 }

/-- One command: its effect on the block, between the two notes of the host's record. -/
def issue (i : Instr) (s : State) : Host.Outcome State Fault Refusal :=
  match exec i (s.withHost (noteBefore i s)) with
  | .next t => .next (t.withHost (noteAfter i t))
  | .fault f => .fault f
  | .refused r => .refused r

/-- Whether a command is one of the Key Scanner's. -/
def isKeyCommand (i : Instr) : Bool :=
  match i with
  | .nop => false
  | .muxStep _ => false
  | .muxAdv => false
  | .keyScan _ => true

/-- A command issued before the last KEY.SCAN has completed, at least `n` microseconds after the action before it: a KEY
command in the pause is a re-entry, to which the model gives no meaning (R206, I14); any other runs, and the pause goes
on (R256; log entry 11). -/
def issueDuringPause (n : Nat) (i : Instr) (s : State) : Host.Outcome State Fault Refusal :=
  if isKeyCommand i && s.host.scanning then .refused .protocolViolation
  else issue i (s.withHost (s.host.elapse n))

/-- One action of the host, already taken from its pending list (R214). -/
def runAction (a : HostAction) (s : State) : Host.Outcome State Fault Refusal :=
  match a with
  | .reset c => s.resetTo c
  | .issue t => issue (decode t) (s.withHost s.host.finishPause)
  | .duringPause n t => issueDuringPause n (decode t) s
  | .wait n => .next (s.withHost (s.host.finishPause.noteWait n))
  | .waitMuxDelay => .next (s.withHost (s.host.finishPause.noteWait s.muxDelay))

/-- The host takes its next action; with none pending the block waits, unchanged (R251; log entry 2). -/
def takeAction (s : State) : Host.Outcome State Fault Refusal :=
  match s.host.pending with
  | [] => .next s
  | a :: rest => runAction a (s.withHost { s.host with pending := rest })

/-- The state whose next host action presents a bare table word, its operand ports at zero; a number that is no command
word places nothing (log entry 13). -/
def placeWord (s : State) (nbits w : Nat) : State :=
  match transactionOfWord (w % 2 ^ nbits) with
  | .ok t => s.withHost { s.host with pending := .issue t :: s.host.pending }
  | .error _ => s

end Sys2Proof.Machine
end

