-- ==== Sys2Proof/Machine/Step.lean ====
section
/-! DEFINITION. The step: the host's next action (R59, R214). -/

namespace Sys2Proof.Machine

/-- One step of the machine: the host's next pending action, a command being atomic (R59). -/
def step (s : State) : Host.Outcome State Fault Refusal := takeAction s

/-- The state whose very next step presents the opcode table's word `w` (log entries 2, 13). -/
def State.withFetchWord (s : State) (nbits w : Nat) : State := placeWord s nbits w

end Sys2Proof.Machine
end

