-- ==== Sys2Proof/Machine/Assembler.lean ====
section
/-! DEFINITION. The assembler's pseudo-instructions, the encoding of a program of host actions, and the spelling of a
line (R82, R83, R84). -/

namespace Sys2Proof.Machine

/-- `MUX.STEP g` as a host action. -/
def asmStep (g : Glyphs) : HostAction := .issue (encode (.muxStep g))

/-- `MUX.ADV` as a host action. -/
def asmAdv : HostAction := .issue (encode .muxAdv)

/-- `n` copies of a program, one after the other. -/
def repeated (n : Nat) (p : List HostAction) : List HostAction :=
  match n with
  | 0 => []
  | k + 1 => p ++ repeated k p

/-- `MUX.TICK g`: MUX.STEP, WAIT MUX_DELAY, MUX.ADV (R83). -/
def muxTick (g : Glyphs) : List HostAction := [asmStep g, .waitMuxDelay, asmAdv]

/-- `MUX.DIGIT g`: ten ticks (R83). -/
def muxDigit (g : Glyphs) : List HostAction := repeated 10 (muxTick g)

/-- `MUX.FRAME g`: eight digits (R83). -/
def muxFrame (g : Glyphs) : List HostAction := repeated 8 (muxDigit g)

/-- `MUX.START g`: one tick (R83). -/
def muxStart (g : Glyphs) : List HostAction := muxTick g

/-- The transaction an action presents; a WAIT encodes to nothing (R82, R84), and a reset is no command (R250). -/
def transactionOf (a : HostAction) : Option Transaction :=
  match a with
  | .issue t => some t
  | .duringPause _ t => some t
  | .reset _ => none
  | .wait _ => none
  | .waitMuxDelay => none

/-- The command words a list of actions encodes to (R84). -/
def actionWords (p : List HostAction) : List (BitVec 2) := p.filterMap fun a => (transactionOf a).map (·.cmd)

/-- The actions of a decoded program, each command issued in turn (R84). -/
def programActions (p : List Instr) : List HostAction := p.map fun i => .issue (encode i)

/-- A hexadecimal digit, in capitals as R82 writes them. -/
def hexDigit (n : BitVec 4) : Char := (Nat.digitChar n.toNat).toUpper

/-- A byte in hexadecimal, two digits. -/
def hexByte (v : Byte) : String := String.ofList [hexDigit (v.extractLsb' 4 4), hexDigit (v.extractLsb' 0 4)]

/-- `0b<S5><S4><S3><S2>`, the levels of the key lines (R82). -/
def keysText (keyN : BitVec 4) : String :=
  "0b" ++ String.join ([3, 2, 1, 0].map fun i => if keyN.getLsbD i then "1" else "0")

/-- A glyph operand as a list of eight bytes (R82). -/
def glyphsText (g : Glyphs) : String := "[" ++ ", ".intercalate (g.toList.map hexByte) ++ "]"

/-- The line of assembler text of a command (R82). -/
def lineText (i : Instr) : String :=
  match i with
  | .nop => "NOP"
  | .muxStep g => "MUX.STEP " ++ glyphsText g
  | .muxAdv => "MUX.ADV"
  | .keyScan keyN => "KEY.SCAN " ++ keysText keyN

/-- The line of assembler text of a WAIT directive (R82). -/
def waitText (n : Nat) : String := "WAIT " ++ toString n

end Sys2Proof.Machine
end

