-- ==== Sys2Proof/Safety.lean ====
section
/-! DEFINITION. What claims speak of: runs of commands, and the invariant that every step keeps (R20, R33, R40, R58, R75,
R76, R142, R148, R201). -/

namespace Sys2Proof.Machine

/-- One outcome and then, when it is a next state, another. -/
def andThen (o : Host.Outcome State Fault Refusal) (f : State → Host.Outcome State Fault Refusal) :
    Host.Outcome State Fault Refusal :=
  match o with
  | .next s => f s
  | .fault r => .fault r
  | .refused r => .refused r

/-- The commands of a list, in order (R59). -/
def execAll (is : List Instr) (s : State) : Host.Outcome State Fault Refusal :=
  match is with
  | [] => .next s
  | i :: rest => andThen (exec i s) (execAll rest)

/-- A number of steps of the machine. -/
def steps (n : Nat) (s : State) : Host.Outcome State Fault Refusal :=
  match n with
  | 0 => .next s
  | k + 1 => andThen (step s) (steps k)

/-- MUX.STEP and MUX.ADV in alternation, one pair for each glyph operand: the host's protocol (R255). -/
def tickList (gs : List Glyphs) : List Instr := gs.flatMap fun g => [.muxStep g, .muxAdv]

/-- PHASE, LATCHED and KEY_EVT hold codes that stand for something (R75, R76). -/
abbrev State.CodesLegal (s : State) : Prop :=
  (phaseOf s.phase).isSome ∧ (keyOf s.latched).isSome ∧ (keyOf s.keyEvt).isSome

/-- The configuration is well formed and SETTLE is what reset computed (R33, R201). -/
abbrev State.ConfigLegal (s : State) : Prop := s.pCfg > 9 * s.tShift ∧ s.settle = s.pCfg - 9 * s.tShift

/-- MUX_DELAY is what the last MUX.STEP returned, and every one of them returned T_SHIFT or SETTLE (R27, R110). -/
abbrev State.DelaysAgree (s : State) : Prop :=
  s.muxDelay = s.muxReturns.getLastD 0 ∧ ∀ d ∈ s.muxReturns, d = s.tShift ∨ d = s.settle

/-- KEY_EVT and KEY_WAIT are what the last KEY.SCAN returned, every scan's wait is T_DEBOUNCE or 0 as it reported a key or
not, and a key just reported is the latched one (R29, R30, R141, R148). -/
abbrev State.ScansAgree (s : State) : Prop :=
  (s.keyEvt, s.keyWait) = (keyCode (s.keyReturns.getLastD (none, 0)).1, (s.keyReturns.getLastD (none, 0)).2) ∧
  (∀ r ∈ s.keyReturns, r.2 = if r.1.isSome then s.tDebounce else 0) ∧
  (s.keyEvt = keyCode none ∨ s.keyEvt = s.latched)

/-- The lines and the devices are what the trace since reset makes of the reset levels (R58, R210, R211, R252). -/
abbrev State.TraceAgrees (s : State) : Prop :=
  replay s.shiftEdge resetLines unknownDevices s.trace = (s.lines, s.dev)

/-- The invariant of the machine. -/
abbrev State.Inv (s : State) : Prop :=
  s.CodesLegal ∧ s.ConfigLegal ∧ s.DelaysAgree ∧ s.ScansAgree ∧ s.TraceAgrees

/-- Every duration of the multiplexer fits a realization's width (R7, D4). The scanner's durations, T_DEBOUNCE and KEY_WAIT,
take no part (log entry 19). -/
abbrev State.DurationsFit (p : Platform) (s : State) : Prop :=
  s.pCfg < 2 ^ p.durW ∧ s.tShift < 2 ^ p.durW ∧ s.settle < 2 ^ p.durW ∧ s.muxDelay < 2 ^ p.durW

/-- The block of one state with the host of another: what is compared where the host must not matter (R202). -/
abbrev State.SameButHost (s t : State) : Prop := t.withHost s.host = s

/-- No two neighbours in a list of key results are both events (R144). -/
def eventsApart (rs : List (Option Key × Nat)) : Bool :=
  match rs with
  | [] => true
  | [_] => true
  | a :: b :: rest => !(a.1.isSome && b.1.isSome) && eventsApart (b :: rest)

end Sys2Proof.Machine
end

