-- ==== Sys2Proof/Certificates/Slice0/Obligations.lean ====
section
/-! DEFINITION. The statements for the provers. Each docstring names the rule it formalises. Where a premise is the
invariant of Safety.lean, that invariant is stated of reset (ResetMeetsTheInvariant) and of every step
(EveryStepKeepsTheInvariant). -/

open Sys2Proof Sys2Proof.Machine

/-- R71: the four words select the four commands, whatever the ports hold. That the opcode table's bare words decode so too,
with both operand ports at zero, is the model's choice (log entry 13). -/
def Obligations.EachWordSelectsItsCommand : Prop :=
  (∀ (g : Glyphs) (k : BitVec 4),
    decode ⟨0b00#2, g, k⟩ = .nop ∧ decode ⟨0b01#2, g, k⟩ = .muxStep g ∧
    decode ⟨0b10#2, g, k⟩ = .muxAdv ∧ decode ⟨0b11#2, g, k⟩ = .keyScan k) ∧
  decodeTableWord 8 0 = some .nop ∧ decodeTableWord 8 1 = some (.muxStep idleGlyphs) ∧
  decodeTableWord 8 2 = some .muxAdv ∧ decodeTableWord 8 3 = some (.keyScan 0#4)

/-- The model's choice (log entry 13), since R70 gives a command word two bits: a number above 3 is no command word, and
placing it leaves the state. -/
def Obligations.NumbersAboveThreeAreNoCommand : Prop :=
  ∀ (s : State) (n w : Nat), 4 ≤ w → w < 2 ^ n → decodeTableWord n w = none ∧ s.withFetchWord n w = s

/-- R70, R72, R84: every command's transaction decodes to it, every program reads back from its words and operand list,
and a list of words and operands that decodes is the encoding of what it decodes to. -/
def Obligations.ProgramsReadBackFromTheirWords : Prop :=
  (∀ i : Instr, i.wellFormed → decode (encode i) = i) ∧
  (∀ p : List Instr, decodeProgram (programWords p) (programOperands p) = .ok p) ∧
  ∀ (ws : List (BitVec 2)) (ops : List Operand) (p : List Instr),
    decodeProgram ws ops = .ok p → programWords p = ws ∧ programOperands p = ops

/-- R75: the sixteen codes of PHASE. -/
def Obligations.PhaseCodesAreTheTable : Prop :=
  (∀ b : BitVec 3, phaseOf (0#1 ++ b) = some (.serializing ⟨b⟩) ∧ phaseCode (.serializing ⟨b⟩) = 0#1 ++ b) ∧
  phaseOf 0b1000#4 = some .latching ∧ phaseCode .latching = 0b1000#4 ∧
  phaseOf 0b1001#4 = some .settled ∧ phaseCode .settled = 0b1001#4 ∧
  ∀ c : BitVec 4, 10 ≤ c.toNat → phaseOf c = none

/-- R76: the eight codes of LATCHED and KEY_EVT. -/
def Obligations.KeyCodesAreTheTable : Prop :=
  keyOf 0b000#3 = some none ∧ keyOf 0b100#3 = some (some .s2) ∧ keyOf 0b101#3 = some (some .s3) ∧
  keyOf 0b110#3 = some (some .s4) ∧ keyOf 0b111#3 = some (some .s5) ∧
  keyOf 0b001#3 = none ∧ keyOf 0b010#3 = none ∧ keyOf 0b011#3 = none ∧
  ∀ e : Option Key, keyOf (keyCode e) = some e

/-- R80: the decimal-point variant of a glyph that has bit 7 clear sets it and keeps every other bit; and on every platform
the table's variant of a symbol has the decimal-point bit set, and is the variant of the symbol's base glyph where that
one has it clear. -/
def Obligations.DecimalPointVariantSetsBitSeven : Prop :=
  (∀ v : Byte, v.getLsbD 7 = false →
    dpVariant v = v ||| 0x80#8 ∧ segmentMask (dpVariant v) .dp = true ∧
    ∀ i, i < 7 → (dpVariant v).getLsbD i = v.getLsbD i) ∧
  ∀ (p : Platform) (sym : Symbol),
    segmentMask (glyphOf p sym true) .dp = true ∧
    (segmentMask (glyphOf p sym false) .dp = false →
      glyphOf p sym true = dpVariant (glyphOf p sym false) ∧
      ∀ seg, seg ≠ .dp → segmentMask (glyphOf p sym true) seg = segmentMask (glyphOf p sym false) seg)

/-- Step and decoding (R59, R71; the host's record: log entries 2, 10, 11): a command that the host issues next is
decoded and run by `exec`, on a state that differs from the one before only in the host's side (the action taken, the
pause finished, the broken duties marked); then the record is brought up to date. A command issued during the pause is
run the same way, with its own time passed and the pause not finished, unless it is a KEY command in a running pause. -/
def Obligations.StepRunsTheDecodedCommand : Prop :=
  ∀ (s : State) (t : Transaction) (n : Nat) (rest : List HostAction),
    (s.host.pending = .issue t :: rest →
      ∀ u, u = s.withHost { s.host with pending := rest }.finishPause →
        step s = match exec (decode t) (u.withHost (noteBefore (decode t) u)) with
          | .next v => .next (v.withHost (noteAfter (decode t) v))
          | .fault f => .fault f
          | .refused r => .refused r) ∧
    (s.host.pending = .duringPause n t :: rest → (t.cmd ≠ 0b11#2 ∨ s.host.scanning = false) →
      ∀ u, u = s.withHost { s.host with pending := rest, owed := s.host.owed - n, pause := s.host.pause - n } →
        step s = match exec (decode t) (u.withHost (noteBefore (decode t) u)) with
          | .next v => .next (v.withHost (noteAfter (decode t) v))
          | .fault f => .fault f
          | .refused r => .refused r)

/-- R160: NOP writes no state and records no line event; issued by the host with no pause running, it changes nothing of
what the host owes either. -/
def Obligations.NopChangesNothing : Prop :=
  (∀ s : State, exec .nop s = .next s) ∧
  ∀ (s : State) (t : Transaction) (rest : List HostAction), s.host.pending = .issue t :: rest → t.cmd = 0b00#2 →
    s.host.pause = 0 → s.host.scanning = false → step s = .next (s.withHost { s.host with pending := rest })

/-- R102, R103, with the frame: MUX.STEP acts under the current phase. In Serializing(b) the data bit b of the glyph of
the current slot, least significant first, stands between the two shift-clock writes; in Latching the shift-clock is
raised again, the select lines take the slot's number (R78) and the latch-clock is raised; in Settled the latch-clock is
lowered. The events are recorded in that order, and the result is T_SHIFT, T_SHIFT or SETTLE. Nothing else of the block
changes (the devices are StepMovesTheRegisterOnItsEdges). -/
def Obligations.StepActsUnderThePhase : Prop :=
  ∀ (s : State) (g : Glyphs),
    (∀ b : BitVec 3, s.phase = 0#1 ++ b →
      ∃ (t : State) (bit : Level), exec (.muxStep g) s = .next t ∧
        bit = (g.get s.slot.code.toFin).getLsbD b.toNat ∧
        t = { s with
          data := bit, sck := false, muxDelay := s.tShift
          trace := s.trace ++ [.line .sck true, .line .data bit, .line .sck false]
          muxReturns := s.muxReturns ++ [s.tShift]
          dev := t.dev }) ∧
    (s.phase = 0b1000#4 →
      ∃ t : State, exec (.muxStep g) s = .next t ∧
        t = { s with
          sck := true, sel := s.slot.code, lck := true, muxDelay := s.tShift
          trace := s.trace ++ [.line .sck true, .sel s.slot.code, .line .lck true]
          muxReturns := s.muxReturns ++ [s.tShift]
          dev := t.dev }) ∧
    (s.phase = 0b1001#4 →
      exec (.muxStep g) s = .next { s with
        lck := false, muxDelay := s.settle
        trace := s.trace ++ [.line .lck false]
        muxReturns := s.muxReturns ++ [s.settle] })

/-- R210, R211: what one MUX.STEP does to the register and its output stage, for either SHIFT_EDGE. In Serializing the
rising edge, where there is one, shifts the DATA level held before, and the falling edge, which there always is, the new
one. In Latching a rising edge shifts, and a rising latch-clock copies what is then in the register. Settled changes
neither. -/
def Obligations.StepMovesTheRegisterOnItsEdges : Prop :=
  ∀ (s : State) (g : Glyphs),
    (∀ b : BitVec 3, s.phase = 0#1 ++ b →
      ∃ t : State, exec (.muxStep g) s = .next t ∧ t.dev.out = s.dev.out ∧
        t.dev.sr =
          let r := s.dev.sr
          match s.shiftEdge with
          | .rising => if s.sck then r else ⟨some s.data, r.s0, r.s1, r.s2, r.s3, r.s4, r.s5, r.s6⟩
          | .falling => ⟨some ((g.get s.slot.code.toFin).getLsbD b.toNat), r.s0, r.s1, r.s2, r.s3, r.s4, r.s5, r.s6⟩) ∧
    (s.phase = 0b1000#4 →
      ∃ t : State, exec (.muxStep g) s = .next t ∧
        (t.dev.sr =
          let r := s.dev.sr
          if s.shiftEdge = .rising ∧ s.sck = false
          then ⟨some s.data, r.s0, r.s1, r.s2, r.s3, r.s4, r.s5, r.s6⟩ else r) ∧
        t.dev.out = if s.lck then s.dev.out else t.dev.sr) ∧
    (s.phase = 0b1001#4 → ∃ t : State, exec (.muxStep g) s = .next t ∧ t.dev = s.dev)

/-- R51: a Serializing step reads one entry of the glyph operand, that of the current slot; Latching and Settled steps
read none. -/
def Obligations.StepReadsOnlyTheCurrentSlotsGlyph : Prop :=
  ∀ (s : State) (g g' : Glyphs),
    (glyphAt g s.slot = glyphAt g' s.slot → exec (.muxStep g) s = exec (.muxStep g') s) ∧
    (s.phase = 0b1000#4 ∨ s.phase = 0b1001#4 → exec (.muxStep g) s = exec (.muxStep g') s)

/-- R104 with R100 and R101, and its frame: the next phase, and the slot's cyclic successor exactly when PHASE was
Settled; nothing else changes, so no line event and no result. -/
def Obligations.AdvanceMovesToTheNextPhase : Prop :=
  ∀ s : State,
    (∀ b : BitVec 3, s.phase = 0#1 ++ b → b ≠ 7#3 →
      exec .muxAdv s = .next { s with phase := 0#1 ++ (b + 1) }) ∧
    (s.phase = 0b0111#4 → exec .muxAdv s = .next { s with phase := 0b1000#4 }) ∧
    (s.phase = 0b1000#4 → exec .muxAdv s = .next { s with phase := 0b1001#4 }) ∧
    (s.phase = 0b1001#4 → exec .muxAdv s = .next { s with phase := 0b0000#4, slot := ⟨s.slot.code + 1⟩ })

/-- R105: the counter law. -/
def Obligations.AdvanceCountsModuloEighty : Prop :=
  ∀ s : State, s.phase.toNat < 10 →
    ∃ t : State, exec .muxAdv s = .next t ∧
      t.phase.toNat = (s.phase.toNat + 1) % 10 ∧
      t.slot.code.toNat = (if s.phase.toNat = 9 then (s.slot.code.toNat + 1) % 8 else s.slot.code.toNat) ∧
      10 * t.slot.code.toNat + t.phase.toNat = (10 * s.slot.code.toNat + s.phase.toNat + 1) % 80

/-- R106: eight successors of a slot are the slot, and eighty MUX.ADV bring SLOT and PHASE back; nothing else has
changed either. -/
def Obligations.EightyAdvancesReturn : Prop :=
  (∀ d : Slot, succSlot^[8] d = d) ∧
  ∀ s : State, s.phase.toNat < 10 → execAll (List.replicate 80 .muxAdv) s = .next s

/-- R107: from Settled with SLOT = d, alternating the two commands acts on Serializing(0..7), Latching, Settled in turn,
and the slot is d's successor from the first MUX.ADV on. After n + 1 pairs the phase code is n. -/
def Obligations.OneDigitPhaseSequence : Prop :=
  ∀ (s : State) (g : Nat → Glyphs) (n : Nat), s.phase = 0b1001#4 → n < 10 →
    ∃ t : State, execAll (tickList ((List.range (n + 1)).map g)) s = .next t ∧
      t.phase = BitVec.ofNat 4 n ∧ t.slot.code = s.slot.code + 1

/-- R108: SEL changes only at a Latching step, and its new value is the code of the current slot, which is the one
serialized since MUX.ADV moves SLOT only in Settled. -/
def Obligations.SelectChangesOnlyAtLatching : Prop :=
  ∀ (i : Instr) (s t : State), exec i s = .next t →
    (t.sel = s.sel ∨ (s.phase = 0b1000#4 ∧ t.sel = s.slot.code)) ∧
    (t.slot = s.slot ∨ s.phase = 0b1001#4)

/-- R109, R113, R114: the trace of one digit under the protocol, from Serializing(0): its line events in full, with the
eight data bits in order, least significant first, each from its own step's operand. -/
def Obligations.OneDigitTrace : Prop :=
  ∀ (s : State) (g : Nat → Glyphs), s.phase = 0b0000#4 →
    ∃ t : State, execAll (tickList ((List.range 10).map g)) s = .next t ∧
      t.trace = s.trace ++
        ((List.range 8).flatMap fun b =>
          [.line .sck true, .line .data (((g b).get s.slot.code.toFin).getLsbD b), .line .sck false]) ++
        [.line .sck true, .sel s.slot.code, .line .lck true, .line .lck false] ∧
      t.phase = 0b0000#4 ∧ t.slot.code = s.slot.code + 1

/-- R109, R114: the edges of one digit under the protocol, from Serializing(0) with the latch-clock low: eight falling
edges of SCK and eight rising ones, nine where SCK was low; one rising and then one falling edge of LCK; SCK is left
high and LCK low. -/
def Obligations.OneDigitEdges : Prop :=
  ∀ (s : State) (g : Nat → Glyphs), s.phase = 0b0000#4 → s.lck = false →
    ∃ (t : State) (more : List LineEvent), execAll (tickList ((List.range 10).map g)) s = .next t ∧
      t.trace = s.trace ++ more ∧
      (edgesOn .sck s.lines more).count .falling = 8 ∧
      (edgesOn .sck s.lines more).count .rising = (if s.sck then 8 else 9) ∧
      edgesOn .lck s.lines more = [.rising, .falling] ∧
      t.sck = true ∧ t.lck = false ∧ t.sel = s.slot.code

/-- R111: the delays of ten phases in a row sum to P_CFG, from whichever phase they start (one digit's ten phases are
those that start at Serializing(0)); PHASE is back where it was. -/
def Obligations.TenDelaysSumToThePeriod : Prop :=
  ∀ (s : State) (g : Nat → Glyphs), s.phase.toNat < 10 → s.ConfigLegal →
    ∃ (t : State) (ds : List Nat), execAll (tickList ((List.range 10).map g)) s = .next t ∧
      t.muxReturns = s.muxReturns ++ ds ∧ ds.length = 10 ∧ ds.sum = s.pCfg ∧ t.phase = s.phase

/-- R112: one refresh of all eight digits, eighty MUX.STEP, takes 8 * P_CFG when the host waits exactly what is returned;
SLOT and PHASE are back where they were. -/
def Obligations.FullRefreshTakesEightPeriods : Prop :=
  ∀ (s : State) (g : Nat → Glyphs), s.phase.toNat < 10 → s.ConfigLegal →
    ∃ (t : State) (ds : List Nat), execAll (tickList ((List.range 80).map g)) s = .next t ∧
      t.muxReturns = s.muxReturns ++ ds ∧ ds.length = 80 ∧ ds.sum = 8 * s.pCfg ∧
      t.phase = s.phase ∧ t.slot = s.slot

/-- R115 (and R116, since each step may have its own operand): for either SHIFT_EDGE, whatever the lines and the register
held before, the byte latched at the end of a digit is `reverse8` of the eight bits driven. -/
def Obligations.LatchedByteIsTheDigitReversed : Prop :=
  ∀ (s : State) (g : Nat → Glyphs) (v : Byte), s.phase = 0b0000#4 → s.lck = false →
    (∀ b, b < 8 → v.getLsbD b = ((g b).get s.slot.code.toFin).getLsbD b) →
    ∃ t : State, execAll (tickList ((List.range 9).map g)) s = .next t ∧
      t.dev.out = Stages.ofByte (reverse8 v) ∧ t.dev.sr = t.dev.out ∧
      t.sel = s.slot.code ∧ t.lck = true

/-- R117: a repeated MUX.STEP. In Latching and Settled the repeat makes no edge and no change of a line or a device; in
Serializing it shifts the register once more, by the bit just driven. PHASE and SLOT do not move. -/
def Obligations.RepeatedStepActsTwice : Prop :=
  ∀ (s : State) (g : Glyphs), s.phase.toNat < 10 →
    ∃ t u : State, exec (.muxStep g) s = .next t ∧ exec (.muxStep g) t = .next u ∧
      u.lines = t.lines ∧ u.phase = s.phase ∧ u.slot = s.slot ∧ u.dev.out = t.dev.out ∧
      u.dev.sr = if s.phase.toNat < 8 then t.dev.sr.shiftIn (glyphBit g s.slot ⟨s.phase.setWidth 3⟩) else t.dev.sr

/-- R117: a digit whose Serializing(b) step is repeated latches the last eight of the nine bits shifted, D[b] twice: the
first bit is lost unless b = 0, where the byte latched is the digit's. -/
def Obligations.RepeatedSerializingShiftsNineBits : Prop :=
  ∀ (s : State) (g : Nat → Glyphs) (b : Nat) (d : Nat → Level), s.phase = 0b0000#4 → s.lck = false → b < 8 →
    (∀ n, n < 8 → d n = ((g n).get s.slot.code.toFin).getLsbD n) →
    ∃ t : State,
      execAll (tickList ((List.range b).map g) ++ [.muxStep (g b)] ++
        tickList ((List.range' b (9 - b)).map g)) s = .next t ∧
      t.dev.out = (((List.range (b + 1)) ++ (List.range' b (8 - b))).map d).foldl Stages.shiftIn .unknown ∧
      (b = 0 → t.dev.out = ⟨some (d 7), some (d 6), some (d 5), some (d 4), some (d 3), some (d 2), some (d 1), some (d 0)⟩)

/-- R118: a digit whose Serializing(b) is skipped by a second MUX.ADV shifts seven bits only, and one bit left from before
the digit stays in stage 7: the DATA level held then, where the first rising edge shifted it in, or else what stage 0
held. -/
def Obligations.SkippedSerializingLeavesAStaleBit : Prop :=
  ∀ (s : State) (g : Nat → Glyphs) (b : Nat) (d : Nat → Level), s.phase = 0b0000#4 → s.lck = false → b < 8 →
    (∀ n, n < 8 → d n = ((g n).get s.slot.code.toFin).getLsbD n) →
    ∃ t : State,
      execAll (tickList ((List.range b).map g) ++ [.muxAdv] ++
        tickList ((List.range' (b + 1) (8 - b)).map g)) s = .next t ∧
      t.dev.out = (((List.range b) ++ (List.range' (b + 1) (7 - b))).map d).foldl Stages.shiftIn
        { Stages.unknown with
          s0 := if s.shiftEdge = .rising ∧ s.sck = false then some s.data else s.dev.sr.s0 }

/-- R118: skipping Latching leaves the lines and the devices, so no digit is latched; and where Settled was skipped the
latch-clock is still high, so the next Latching latches nothing. -/
def Obligations.SkippedLatchOrSettleLatchesNothing : Prop :=
  (∀ s : State, s.phase = 0b1000#4 →
    ∃ t : State, exec .muxAdv s = .next t ∧ t.phase = 0b1001#4 ∧ t.lines = s.lines ∧ t.dev = s.dev ∧ t.trace = s.trace) ∧
  ∀ (s : State) (g : Nat → Glyphs), s.phase = 0b1001#4 → s.lck = true →
    ∃ t : State, execAll (.muxAdv :: tickList ((List.range 9).map g)) s = .next t ∧
      t.dev.out = s.dev.out ∧ t.lck = true ∧ t.phase = 0b1001#4

/-- R119: the first MUX.STEP after reset acts in Settled, its event is no edge and it returns SETTLE; the first MUX.ADV
then selects the slot after INIT_SLOT, which is 0 for the default 7. -/
def Obligations.FirstCommandsAfterReset : Prop :=
  ∀ (c : Construction) (s : State) (g : Glyphs), c.pCfg > 9 * c.tShift →
    ∃ r t u : State, s.resetTo c = .next r ∧ exec (.muxStep g) r = .next t ∧ exec .muxAdv t = .next u ∧
      t.trace = [.line .lck false] ∧ edgeCount r.lines t.trace = 0 ∧ t.muxDelay = c.pCfg - 9 * c.tShift ∧
      u.phase = 0b0000#4 ∧ u.slot.code = c.initSlot.code + 1 ∧
      (c.initSlot = ⟨7#3⟩ → u.slot.code = 0#3)

/-- R75, R203, which commands look at PHASE being the model's reading (log entry 6): a PHASE code 10..15 stops both MUX
commands. -/
def Obligations.UnreachablePhaseFaults : Prop :=
  ∀ (s : State) (g : Glyphs), 10 ≤ s.phase.toNat →
    exec (.muxStep g) s = .fault .unreachablePhase ∧ exec .muxAdv s = .fault .unreachablePhase

/-- R76, R203, which command looks at LATCHED being the model's reading (log entry 6): a LATCHED code 001..011 stops
KEY.SCAN. -/
def Obligations.UnreachableLatchedCodeFaults : Prop :=
  ∀ (s : State) (keyN : BitVec 4), 1 ≤ s.latched.toNat → s.latched.toNat ≤ 3 →
    exec (.keyScan keyN) s = .fault .unreachableKeyCode

/-- R140: the first asserted key in the order S2, S3, S4, S5. -/
def Obligations.FirstPressedFollowsThePriority : Prop :=
  ∀ keyN : BitVec 4,
    (firstPressed keyN = some .s2 ↔ keyN[0] = false) ∧
    (firstPressed keyN = some .s3 ↔ keyN[0] = true ∧ keyN[1] = false) ∧
    (firstPressed keyN = some .s4 ↔ keyN[0] = true ∧ keyN[1] = true ∧ keyN[2] = false) ∧
    (firstPressed keyN = some .s5 ↔ keyN[0] = true ∧ keyN[1] = true ∧ keyN[2] = true ∧ keyN[3] = false) ∧
    (firstPressed keyN = none ↔ keyN = 0b1111#4)

/-- R141 (and R140 inside it), with its frame: KEY.SCAN with a key latched samples that key's line alone and reports
None, clearing the latch when the line is high; with nothing latched it latches and reports the first asserted key, with
the debounce wait, or reports None. Nothing else changes. -/
def Obligations.ScanClearsOrConfirms : Prop :=
  ∀ (s : State) (keyN : BitVec 4),
    (∀ c : BitVec 2, s.latched = 1#1 ++ c →
      exec (.keyScan keyN) s = .next { s with
        latched := if keyN.getLsbD c.toNat then 0b000#3 else s.latched
        keyEvt := 0b000#3, keyWait := 0
        keyReturns := s.keyReturns ++ [(none, 0)] }) ∧
    (s.latched = 0b000#3 →
      let report (k : Key) (code : BitVec 3) : State := { s with
        latched := code, keyEvt := code, keyWait := s.tDebounce
        keyReturns := s.keyReturns ++ [(some k, s.tDebounce)] }
      exec (.keyScan keyN) s = .next (
        if keyN[0] = false then report .s2 0b100#3
        else if keyN[1] = false then report .s3 0b101#3
        else if keyN[2] = false then report .s4 0b110#3
        else if keyN[3] = false then report .s5 0b111#3
        else { s with keyEvt := 0b000#3, keyWait := 0, keyReturns := s.keyReturns ++ [(none, 0)] }))

/-- R142: KEY.SCAN sets LATCHED to a key only from None; a latched key is otherwise kept or cleared. -/
def Obligations.LatchIsSetOnlyFromNone : Prop :=
  ∀ (s t : State) (keyN : BitVec 4) (k : Key), exec (.keyScan keyN) s = .next t →
    t.latched = keyCode (some k) → s.latched = keyCode none ∨ s.latched = keyCode (some k)

/-- R143: a scan that reports a key reports nothing again, in any number of later scans that each find that key's line
low, whatever the other lines do; the key stays latched. -/
def Obligations.OneEventPerPress : Prop :=
  ∀ (s : State) (first : BitVec 4) (k : Key) (later : List (BitVec 4)),
    s.latched = keyCode none → firstPressed first = some k → (∀ n ∈ later, sample n k = false) →
    ∃ t : State, execAll ((first :: later).map .keyScan) s = .next t ∧
      t.keyReturns = s.keyReturns ++ (some k, s.tDebounce) :: List.replicate later.length (none, 0) ∧
      t.latched = keyCode (some k)

/-- R144: the scan that finds the latched key released clears it and reports None; and in any run of scans, from any
legal state, two events are never neighbours. -/
def Obligations.ReleaseIsNotReported : Prop :=
  (∀ (s : State) (k : Key) (keyN : BitVec 4), s.latched = keyCode (some k) → sample keyN k = true →
    ∃ t : State, exec (.keyScan keyN) s = .next t ∧ t.latched = keyCode none ∧
      t.keyReturns = s.keyReturns ++ [(none, 0)] ∧ t.keyEvt = keyCode none) ∧
  ∀ (s : State) (ks : List (BitVec 4)), s.CodesLegal →
    ∃ (t : State) (rs : List (Option Key × Nat)), execAll (ks.map .keyScan) s = .next t ∧
      t.keyReturns = s.keyReturns ++ rs ∧ rs.length = ks.length ∧ eventsApart rs = true

/-- R145: while a key is latched, the outcome of a scan depends on that key's line alone; and a key still asserted when
the latched one is released is reported by the next scan, if it comes first there. -/
def Obligations.OtherKeysAreInvisibleWhileLatched : Prop :=
  (∀ (s : State) (k : Key) (n n' : BitVec 4), s.latched = keyCode (some k) → sample n k = sample n' k →
    exec (.keyScan n) s = exec (.keyScan n') s) ∧
  ∀ (s : State) (k j : Key) (n n' : BitVec 4), s.latched = keyCode (some k) → sample n k = true →
    firstPressed n' = some j →
    ∃ t : State, execAll [.keyScan n, .keyScan n'] s = .next t ∧ t.latched = keyCode (some j) ∧
      t.keyReturns = s.keyReturns ++ [(none, 0), (some j, s.tDebounce)]

/-- R146, R147: a press seen by one scan only gives exactly one event, however long it is then released; a line that
bounces high for one scan while latched is reported a second time. -/
def Obligations.OneSampleConfirmsAPress : Prop :=
  (∀ (s : State) (first : BitVec 4) (k : Key) (n : Nat), s.latched = keyCode none → firstPressed first = some k →
    ∃ t : State, execAll ((first :: List.replicate (n + 1) 0b1111#4).map .keyScan) s = .next t ∧
      t.keyReturns = s.keyReturns ++ (some k, s.tDebounce) :: List.replicate (n + 1) (none, 0) ∧
      t.latched = keyCode none) ∧
  ∀ (s : State) (k : Key) (high low : BitVec 4), s.latched = keyCode (some k) → sample high k = true →
    firstPressed low = some k →
    ∃ t : State, execAll [.keyScan high, .keyScan low] s = .next t ∧
      t.keyReturns = s.keyReturns ++ [(none, 0), (some k, s.tDebounce)] ∧ t.latched = keyCode (some k)

/-- R148: KEY_WAIT is T_DEBOUNCE when the scan reports a key, and 0 when it does not. -/
def Obligations.WaitOnlyOnTheDetectingScan : Prop :=
  ∀ (s t : State) (keyN : BitVec 4), exec (.keyScan keyN) s = .next t →
    ∃ e : Option Key, t.keyReturns = s.keyReturns ++ [(e, t.keyWait)] ∧ t.keyEvt = keyCode e ∧
      t.keyWait = if e.isSome then s.tDebounce else 0

/-- R149: what a scan reports and latches is a function of LATCHED and the lines: two states that agree on LATCHED,
however else they differ (T_DEBOUNCE, the multiplexer, the host), answer alike. -/
def Obligations.ScanDependsOnLatchAndLinesOnly : Prop :=
  ∀ (s s' t : State) (keyN : BitVec 4), s.latched = s'.latched → exec (.keyScan keyN) s = .next t →
    ∃ t' : State, exec (.keyScan keyN) s' = .next t' ∧ t'.latched = t.latched ∧ t'.keyEvt = t.keyEvt

/-- R62, R205: a MUX command and a KEY command commute: in either order the same state, its trace, its returns and its
devices included. -/
def Obligations.MuxAndKeyCommandsCommute : Prop :=
  ∀ (s : State) (m : Instr) (keyN : BitVec 4), s.CodesLegal → (m = .muxAdv ∨ ∃ g, m = .muxStep g) →
    ∃ t : State, execAll [m, .keyScan keyN] s = .next t ∧ execAll [.keyScan keyN, m] s = .next t

/-- R40: the write map: which command may write which element, and under which phase; SLOT, PHASE, MUX_DELAY, KEY_EVT and
KEY_WAIT as the map says; the configuration by none; and the column of reset. The host's side and the register's
SHIFT_EDGE, which are not the block's, are written by no command either. -/
def Obligations.CommandsKeepTheWriteMap : Prop :=
  (∀ (i : Instr) (s t : State), exec i s = .next t →
    (t.slot ≠ s.slot → i = .muxAdv ∧ s.phase = 0b1001#4) ∧
    (t.phase ≠ s.phase → i = .muxAdv) ∧
    (t.data ≠ s.data → (∃ g, i = .muxStep g) ∧ s.phase.toNat < 8) ∧
    (t.sck ≠ s.sck → (∃ g, i = .muxStep g) ∧ s.phase.toNat < 9) ∧
    (t.lck ≠ s.lck → (∃ g, i = .muxStep g) ∧ (s.phase = 0b1000#4 ∨ s.phase = 0b1001#4)) ∧
    (t.sel ≠ s.sel → (∃ g, i = .muxStep g) ∧ s.phase = 0b1000#4) ∧
    (t.muxDelay ≠ s.muxDelay ∨ t.muxReturns ≠ s.muxReturns ∨ t.trace ≠ s.trace ∨ t.dev ≠ s.dev → ∃ g, i = .muxStep g) ∧
    (t.latched ≠ s.latched ∨ t.keyEvt ≠ s.keyEvt ∨ t.keyWait ≠ s.keyWait ∨ t.keyReturns ≠ s.keyReturns →
      ∃ k, i = .keyScan k) ∧
    t.pCfg = s.pCfg ∧ t.tShift = s.tShift ∧ t.settle = s.settle ∧ t.tDebounce = s.tDebounce ∧
    t.shiftEdge = s.shiftEdge ∧ t.host = s.host ∧
    (i = .muxAdv → t.phase ≠ s.phase) ∧
    ((∃ g, i = .muxStep g) → t.muxReturns = s.muxReturns ++ [t.muxDelay]) ∧
    ((∃ k, i = .keyScan k) → ∃ e, t.keyReturns = s.keyReturns ++ [(e, t.keyWait)] ∧ t.keyEvt = keyCode e)) ∧
  ∀ (c : Construction) (s t : State), s.resetTo c = .next t →
    t.slot = c.initSlot ∧ t.phase = 0b1001#4 ∧ t.data = false ∧ t.sck = false ∧ t.lck = false ∧ t.sel = 0b000#3 ∧
    t.muxDelay = 0 ∧ t.latched = 0b000#3 ∧ t.keyEvt = 0b000#3 ∧ t.keyWait = 0 ∧
    t.pCfg = c.pCfg ∧ t.tShift = c.tShift ∧ t.settle = c.pCfg - 9 * c.tShift ∧ t.tDebounce = c.tDebounce

/-- R250, as a step of the host: a well formed construction sets every element to its reset value; any other is
refused. -/
def Obligations.ResetConstructsOrRefuses : Prop :=
  ∀ (s : State) (c : Construction) (rest : List HostAction), s.host.pending = .reset c :: rest →
    (c.pCfg > 9 * c.tShift →
      ∃ t : State, step s = .next t ∧
        t.slot = c.initSlot ∧ t.phase = 0b1001#4 ∧ t.data = false ∧ t.sck = false ∧ t.lck = false ∧ t.sel = 0b000#3 ∧
        t.muxDelay = 0 ∧ t.latched = 0b000#3 ∧ t.keyEvt = 0b000#3 ∧ t.keyWait = 0 ∧
        t.pCfg = c.pCfg ∧ t.tShift = c.tShift ∧ t.settle = c.pCfg - 9 * c.tShift ∧ t.tDebounce = c.tDebounce) ∧
    (c.pCfg ≤ 9 * c.tShift → step s = .refused .badPeriod)

/-- R252, and the model's choice for the rest (log entry 9): a reset starts the trace and the returns anew and records no
event, the devices restart unknown, the attached register stays, and the host's record restarts whole: nothing owed, no
pause, no glyph, no WAIT and no mark; the host goes on with its next action. -/
def Obligations.ResetRestartsTheEnvironment : Prop :=
  ∀ (s t : State) (c : Construction) (rest : List HostAction), s.host.pending = .reset c :: rest → step s = .next t →
    t.trace = [] ∧ t.muxReturns = [] ∧ t.keyReturns = [] ∧
    t.dev.sr = ⟨none, none, none, none, none, none, none, none⟩ ∧
    t.dev.out = ⟨none, none, none, none, none, none, none, none⟩ ∧
    t.shiftEdge = s.shiftEdge ∧ t.host.pending = rest ∧ t.host.owed = 0 ∧ t.host.advNext = false ∧ t.host.pause = 0 ∧
    t.host.scanning = false ∧ t.host.digitGlyph = none ∧ t.host.waits = [] ∧ t.host.violations = []

/-- R250 for `State.reset`, whose construction inputs are the model's choice (log entry 3): it is what `RESET` leaves for
`Config.commonSetup`, from any state with the default register and nothing pending. -/
def Obligations.ResetStateIsAConstruction : Prop :=
  ∀ s : State, s.shiftEdge = .rising → s.host.pending = [] → s.resetTo Config.commonSetup = .next State.reset

/-- The invariant holds at `State.reset`, whose construction inputs are the model's choice (log entry 3), and after every
reset that is not refused, whatever its construction and the attached register. -/
def Obligations.ResetMeetsTheInvariant : Prop :=
  State.reset.Inv ∧ ∀ (c : Construction) (s t : State), s.resetTo c = .next t → t.Inv

/-- Every step keeps the invariant (R33, R201: the configuration; R75, R76, R257: legal codes; R27, R110: the delays;
R29, R30, R142, R148: the scans; R58, R210, R211: lines and devices as the trace makes them). -/
def Obligations.EveryStepKeepsTheInvariant : Prop :=
  ∀ s t : State, s.Inv → step s = .next t → t.Inv

/-- R200, R203, R207: with legal codes no command raises anything: every command, always, has a next state. -/
def Obligations.NoCommandRaisesAnException : Prop :=
  ∀ (i : Instr) (s : State), s.CodesLegal → ∃ t : State, exec i s = .next t ∧ t.CodesLegal

/-- R203: the closed set of outcomes of a step. With legal codes a step ends in a next state, unless the host resets with
a period that is not well formed or re-enters the scanner during its pause. That the re-entry is refused is the model's
choice (log entry 11): R203 itself lists ProtocolViolation as a host-side mark. -/
def Obligations.StepOutcomesAreClosed : Prop :=
  ∀ s : State, s.CodesLegal →
    (∃ t : State, step s = .next t) ∨
    (step s = .refused .badPeriod ∧ ∃ c rest, s.host.pending = .reset c :: rest ∧ c.pCfg ≤ 9 * c.tShift) ∨
    (step s = .refused .protocolViolation ∧
      ∃ n t rest, s.host.pending = .duringPause n t :: rest ∧ t.cmd = 0b11#2 ∧ s.host.scanning = true)

/-- R202, R257: what the host owes, has waited and has broken never reaches the block: two states that differ only there,
with the same actions pending and both or neither in a pause, take steps that differ only there, with the same actions
pending and both or neither in a pause; and where one stops, the other stops alike. -/
def Obligations.BrokenDutiesNeverReachTheBlock : Prop :=
  ∀ (s : State) (h : HostSide), h.pending = s.host.pending → h.scanning = s.host.scanning →
    (∀ t, step s = .next t →
      ∃ t' : State, step (s.withHost h) = .next t' ∧ t.SameButHost t' ∧
        t'.host.pending = t.host.pending ∧ t'.host.scanning = t.host.scanning) ∧
    (∀ f, step s = .fault f → step (s.withHost h) = .fault f) ∧
    ∀ r, step s = .refused r → step (s.withHost h) = .refused r

/-- R206, R256, I14 (log entry 11): during the debounce pause a KEY command is refused, and a MUX command or a NOP runs
as it does at any other time. So a scan that confirms a press, with T_DEBOUNCE above 0 (log entry 18), and a second scan
issued before it has completed are two steps that end in the refusal, whatever time the second lets pass, and with a MUX
command between them too. -/
def Obligations.ReentryDuringThePauseIsRefused : Prop :=
  (∀ (s : State) (n : Nat) (t : Transaction) (rest : List HostAction), s.host.pending = .duringPause n t :: rest →
    (t.cmd = 0b11#2 → s.host.scanning = true → step s = .refused .protocolViolation) ∧
    (t.cmd ≠ 0b11#2 → s.phase.toNat < 10 →
      ∃ u v : State, step s = .next u ∧ exec (decode t) s = .next v ∧ v.SameButHost u)) ∧
  ∀ (s : State) (keyN keyN' : BitVec 4) (k : Key) (m n : Nat) (t : Transaction) (rest : List HostAction),
    s.latched = keyCode none → firstPressed keyN = some k → s.tDebounce ≠ 0 →
    (s.host.pending = .issue (encode (.keyScan keyN)) :: .duringPause n (encode (.keyScan keyN')) :: rest →
      steps 2 s = .refused .protocolViolation) ∧
    (s.host.pending = .issue (encode (.keyScan keyN)) :: .duringPause m t ::
        .duringPause n (encode (.keyScan keyN')) :: rest →
      t.cmd ≠ 0b11#2 → s.phase.toNat < 10 → steps 3 s = .refused .protocolViolation)

/-- R141, R206, R256, R262 (log entries 10, 11, 18): the debounce pause begins with every KEY.SCAN that answers a KEY_WAIT
above 0, the whole of KEY_WAIT then to be counted, and a KEY.SCAN that answers 0 leaves none; another command issued
during the pause lets it go on, less the time that passed (and nothing of it is counted past a MUX.STEP); any other
command and any WAIT ends it. -/
def Obligations.DebouncePauseBeginsAndEnds : Prop :=
  ∀ (s t : State) (a : HostAction) (rest : List HostAction), s.host.pending = a :: rest → step s = .next t →
    (∀ tx : Transaction, (a = .issue tx ∨ ∃ n, a = .duringPause n tx) → tx.cmd = 0b11#2 →
      t.host.pause = t.keyWait ∧ (t.host.scanning = true ↔ t.keyWait ≠ 0)) ∧
    (∀ (n : Nat) (tx : Transaction), a = .duringPause n tx → tx.cmd ≠ 0b11#2 →
      t.host.scanning = s.host.scanning ∧
      t.host.pause = if tx.cmd = 0b01#2 then 0 else s.host.pause - n) ∧
    ((∃ tx : Transaction, a = .issue tx ∧ tx.cmd ≠ 0b11#2) ∨ (∃ n, a = .wait n) ∨ a = .waitMuxDelay →
      t.host.scanning = false ∧ t.host.pause = 0)

/-- R82, R254 (log entry 10): a WAIT changes no state of the block; it is recorded, and its time, with what was not yet
counted of the debounce pause, is taken off what is owed; the MUX
command due, the digit's byte and the marks stay. With nothing pending the machine waits. -/
def Obligations.WaitingChangesNoBlockState : Prop :=
  (∀ (s : State) (rest : List HostAction) (a : HostAction) (n : Nat), s.host.pending = a :: rest →
    (a = .wait n ∨ (a = .waitMuxDelay ∧ n = s.muxDelay)) →
    ∃ t : State, step s = .next t ∧ s.SameButHost t ∧ t.host.pending = rest ∧ t.host.waits = s.host.waits ++ [n] ∧
      t.host.owed = s.host.owed - (s.host.pause + n) ∧ t.host.advNext = s.host.advNext ∧
      t.host.digitGlyph = s.host.digitGlyph ∧ t.host.violations = s.host.violations) ∧
  ∀ s : State, s.host.pending = [] → step s = .next s

/-- R203, R254, R255, R260 (log entries 10, 11, 12): a MUX command issued while part of the minimum delay is still owed is
marked, and so is one out of turn, and so is a Serializing step whose byte differs from the digit's first; one that breaks
no duty is not. It holds in every phase, and for a command issued after the previous one has completed, when what is
not yet counted of a pause counts toward what is owed, as for one issued in the pause, when its own time alone does. From
a MUX.STEP on nothing of a pause counts toward its delay. The digit's first byte is kept from its Serializing step on,
through every MUX.ADV but the one in Settled, which moves the slot; NOP and KEY.SCAN keep it. -/
def Obligations.BrokenMuxDutiesAreMarked : Prop :=
  ∀ (s t : State) (tx : Transaction) (rest : List HostAction) (passed : Nat),
    ((s.host.pending = .issue tx :: rest ∧ passed = s.host.pause) ∨ s.host.pending = .duringPause passed tx :: rest) →
    step s = .next t →
    (tx.cmd = 0b10#2 →
      t.host.violations = s.host.violations ++
        (if s.host.owed - passed ≠ 0 then [.minimumDelay] else []) ++
        (if s.host.advNext = false then [.alternation] else []) ∧
      t.host.owed = 0 ∧ t.host.advNext = false ∧
      t.host.digitGlyph = (if s.phase = 0b1001#4 then none else s.host.digitGlyph)) ∧
    (tx.cmd = 0b01#2 →
      t.host.violations = s.host.violations ++
        (if s.host.owed - passed ≠ 0 then [.minimumDelay] else []) ++
        (if s.host.advNext = true then [.alternation] else []) ++
        (if s.phase.toNat < 8 ∧ ∃ x, s.host.digitGlyph = some x ∧ x ≠ tx.glyph.get s.slot.code.toFin
          then [.glyphStability] else []) ∧
      t.host.owed = t.muxDelay ∧ t.host.pause = 0 ∧ t.host.advNext = true ∧
      t.host.digitGlyph = (if s.phase.toNat < 8 then some (s.host.digitGlyph.getD (tx.glyph.get s.slot.code.toFin))
        else s.host.digitGlyph)) ∧
    (tx.cmd = 0b00#2 ∨ tx.cmd = 0b11#2 →
      t.host.violations = s.host.violations ∧ t.host.advNext = s.host.advNext ∧ t.host.owed = s.host.owed - passed ∧
      t.host.digitGlyph = s.host.digitGlyph)

/-- R260 (log entry 12): a Serializing step whose operand gives the current slot another byte than the digit's first
Serializing step did is marked, and one that gives the same byte is not. -/
def Obligations.ChangedGlyphsAreMarked : Prop :=
  ∀ (s : State) (g : Glyphs) (rest : List HostAction) (x : Byte),
    s.host.pending = asmStep g :: rest → s.phase.toNat < 8 → s.host.owed = 0 → s.host.advNext = false →
    ∃ t : State, step s = .next t ∧
      (s.host.digitGlyph = some x →
        t.host.digitGlyph = some x ∧
        t.host.violations = s.host.violations ++ (if x ≠ g.get s.slot.code.toFin then [.glyphStability] else [])) ∧
      (s.host.digitGlyph = none →
        t.host.digitGlyph = some (g.get s.slot.code.toFin) ∧ t.host.violations = s.host.violations)

/-- R83, R254, R255, R260 (log entries 10, 12): a MUX.TICK, taken in three steps by a host that owes nothing and whose
glyph agrees with the digit's, has the effect of its two commands, is marked for nothing, and leaves nothing owed. The
digit's byte it leaves is again none or that of the same operand, so the ticks of a digit chain. -/
def Obligations.TickKeepsEveryDuty : Prop :=
  ∀ (s : State) (g : Glyphs) (rest : List HostAction),
    s.phase.toNat < 10 → s.host.pending = muxTick g ++ rest → s.host.owed = 0 → s.host.advNext = false →
    (s.host.digitGlyph = none ∨ s.host.digitGlyph = some (g.get s.slot.code.toFin)) →
    ∃ t u : State, steps 3 s = .next t ∧ execAll [.muxStep g, .muxAdv] s = .next u ∧ u.SameButHost t ∧
      t.host.pending = rest ∧ t.host.owed = 0 ∧ t.host.advNext = false ∧
      t.host.violations = s.host.violations ∧ t.host.waits = s.host.waits ++ [t.muxDelay] ∧
      t.host.digitGlyph = (if s.phase = 0b1001#4 then none
        else if s.phase.toNat < 8 then some (g.get s.slot.code.toFin) else s.host.digitGlyph)

/-- R84: a program of decoded commands, issued action by action, encodes to its words, and WAIT and reset encode to
nothing; MUX.TICK encodes to 01 10. -/
def Obligations.ActionsEncodeToTheirWords : Prop :=
  (∀ p : List Instr, actionWords (programActions p) = programWords p) ∧
  (∀ (n : Nat) (c : Construction) (p : List HostAction),
    actionWords (.wait n :: p) = actionWords p ∧ actionWords (.waitMuxDelay :: p) = actionWords p ∧
    actionWords (.reset c :: p) = actionWords p) ∧
  ∀ g : Glyphs, actionWords (muxTick g) = [0b01#2, 0b10#2] ∧
    actionWords (muxDigit g) = (List.replicate 10 [0b01#2, 0b10#2]).flatten

/-- R36, R29: under the invariant the host reads KEY_EVT without a fault, and it is `Some` exactly when the last scan
since reset reported a key. -/
def Obligations.HostReadsTheLastKeyEvent : Prop :=
  ∀ s : State, s.Inv →
    s.readKeyEvt = .ok (s.keyReturns.getLastD (none, 0)).1 ∧
    s.keyEventPresent = .ok (s.keyReturns.getLastD (none, 0)).1.isSome

/-- R7, D4: under the invariant, where DUR_W is at least the width of P_CFG, every duration of the multiplexer fits it. -/
def Obligations.MuxDurationsFitTheWidth : Prop :=
  ∀ (p : Platform) (s : State), s.Inv → s.pCfg < 2 ^ p.durW → s.DurationsFit p

/-- R212 (log entry 15): after every Latching step, whatever the lines held and for either SHIFT_EDGE, the position picked
is DIGIT_MAP of the slot's code. Where the latch-clock was low, a segment reads as on where the byte then in the register
has SEG_ON_LEVEL at the stage wired to it, the step's own rising shift edge included (R210, R211); where it was high, what
a segment reads as is unchanged. -/
def Obligations.LatchedDigitIsWhatThePlatformShows : Prop :=
  ∀ (p : Platform) (s : State) (g : Glyphs) (seg : Segment), s.phase = 0b1000#4 →
    ∃ t : State, exec (.muxStep g) s = .next t ∧
      t.selectedPosition p = p.digitMap s.slot.code ∧
      (∀ v : Byte, s.lck = false →
        (if s.shiftEdge = .rising ∧ s.sck = false then s.dev.sr.shiftIn s.data else s.dev.sr) = Stages.ofByte v →
        t.segmentOn p seg = some (v.getLsbD (p.segStage seg).code.toNat == p.segOnLevel)) ∧
      (s.lck = true → t.segmentOn p seg = s.segmentOn p seg)
end

