-- ==== Sys2Proof/Laws/Environment.lean ====
section
/-! SUPPORT. Line events, edges, and the devices on the lines. -/

namespace Sys2Proof.Machine

@[simp] theorem Lines.after_data (ln : Lines) (v : Level) : ln.after (.line .data v) = { ln with data := v } := rfl
@[simp] theorem Lines.after_sck (ln : Lines) (v : Level) : ln.after (.line .sck v) = { ln with sck := v } := rfl
@[simp] theorem Lines.after_lck (ln : Lines) (v : Level) : ln.after (.line .lck v) = { ln with lck := v } := rfl
@[simp] theorem Lines.after_sel (ln : Lines) (v : BitVec 3) : ln.after (.sel v) = { ln with sel := v } := rfl

@[simp] theorem Devices.see_data (e : Edge) (ln : Lines) (v : Level) (d : Devices) :
    d.see e ln (.line .data v) = d := rfl
@[simp] theorem Devices.see_sel (e : Edge) (ln : Lines) (v : BitVec 3) (d : Devices) : d.see e ln (.sel v) = d := rfl
theorem Devices.see_sck (e : Edge) (ln : Lines) (v : Level) (d : Devices) :
    d.see e ln (.line .sck v) = if edgeOf ln.sck v = some e then { d with sr := d.sr.shiftIn ln.data } else d := rfl
theorem Devices.see_lck (e : Edge) (ln : Lines) (v : Level) (d : Devices) :
    d.see e ln (.line .lck v) = if edgeOf ln.lck v = some .rising then { d with out := d.sr } else d := rfl

/-- The register after an SCK write (R210). -/
theorem Devices.see_sck_sr (e : Edge) (ln : Lines) (v : Level) (d : Devices) :
    (d.see e ln (.line .sck v)).sr = if edgeOf ln.sck v = some e then d.sr.shiftIn ln.data else d.sr := by
  simp only [Devices.see_sck]; split <;> rfl

/-- The output stage after an LCK write (R211). -/
theorem Devices.see_lck_out (e : Edge) (ln : Lines) (v : Level) (d : Devices) :
    (d.see e ln (.line .lck v)).out = if edgeOf ln.lck v = some .rising then d.sr else d.out := by
  simp only [Devices.see_lck]; split <;> rfl

theorem edgeOf_true (v : Level) : edgeOf v true = if v then none else some .rising := by cases v <;> rfl
theorem edgeOf_false (v : Level) : edgeOf v false = if v then some .falling else none := by cases v <;> rfl

/-- A write of the held level is no edge (R58). -/
@[simp] theorem edgeOf_self (v : Level) : edgeOf v v = none := by cases v <;> rfl

/-- Only an SCK write moves the register. -/
@[simp] theorem Devices.see_lck_sr (e : Edge) (ln : Lines) (v : Level) (d : Devices) :
    (d.see e ln (.line .lck v)).sr = d.sr := by simp only [Devices.see_lck]; split <;> rfl

/-- Only an LCK write moves the output stage. -/
@[simp] theorem Devices.see_sck_out (e : Edge) (ln : Lines) (v : Level) (d : Devices) :
    (d.see e ln (.line .sck v)).out = d.out := by simp only [Devices.see_sck]; split <;> rfl

/-- A trace is replayed one part after the other. -/
theorem replay_append (e : Edge) (ln : Lines) (d : Devices) (tr more : List LineEvent) :
    replay e ln d (tr ++ more) = replay e (replay e ln d tr).1 (replay e ln d tr).2 more := by
  induction tr generalizing ln d with
  | nil => rfl
  | cons x rest ih => exact ih _ _

end Sys2Proof.Machine
end

