-- ==== Sys2Proof/Laws/Operands.lean ====
section
/-! SUPPORT. The codes of phases and keys, and the functions on them. -/

namespace Sys2Proof.Machine

@[simp] theorem phaseOf_phaseCode (p : Phase) : phaseOf (phaseCode p) = some p := by
  cases p with
  | serializing b => obtain ⟨b⟩ := b; revert b; decide
  | latching => decide
  | settled => decide

/-- A command word is one of four. -/
theorem command_word_cases (w : BitVec 2) : w = 0b00#2 ∨ w = 0b01#2 ∨ w = 0b10#2 ∨ w = 0b11#2 := by
  revert w; decide

/-- The code of a Serializing phase. -/
theorem phaseOf_serializing (b : BitVec 3) : phaseOf (0#1 ++ b) = some (.serializing ⟨b⟩) := by
  revert b; decide

theorem phaseCode_serializing (b : BitIdx) : phaseCode (.serializing b) = 0#1 ++ b.code := by
  obtain ⟨b⟩ := b; revert b; decide

/-- A legal code is that of one phase. -/
theorem phase_of_lt {c : BitVec 4} (h : c.toNat < 10) : ∃ p, phaseOf c = some p ∧ phaseCode p = c := by
  have key : ∀ c : BitVec 4, c.toNat < 10 → ∃ p ∈ phaseOf c, phaseCode p = c := by decide
  exact key c h

theorem phaseOf_latching : phaseOf 0b1000#4 = some .latching := by decide
theorem phaseOf_settled : phaseOf 0b1001#4 = some .settled := by decide

/-- A code below eight is that of a Serializing phase. -/
theorem serializing_of_lt {c : BitVec 4} (h : c.toNat < 8) : c = 0#1 ++ c.setWidth 3 := by
  revert c; decide

/-- A code below ten is one of the ten phases. -/
theorem phase_cases {c : BitVec 4} (h : c.toNat < 10) : c.toNat < 8 ∨ c = 0b1000#4 ∨ c = 0b1001#4 := by
  revert c; decide

/-- Reading a code back gives the code: PHASE has one code for each phase. -/
theorem phaseCode_of_phaseOf {c : BitVec 4} {p : Phase} (h : phaseOf c = some p) : phaseCode p = c := by
  have key : ∀ c : BitVec 4, ∀ q ∈ phaseOf c, phaseCode q = c := by decide
  exact key c p h

/-- A code stands for a phase exactly when it is below ten. -/
theorem phaseOf_isSome_iff (c : BitVec 4) : (phaseOf c).isSome ↔ c.toNat < 10 := by
  revert c; decide

@[simp] theorem keyOf_keyCode (e : Option Key) : keyOf (keyCode e) = some e := by
  cases e with
  | none => decide
  | some k => cases k <;> decide

/-- Reading a code back gives the code: a key register has one code for each value. -/
theorem keyCode_of_keyOf {c : BitVec 3} {e : Option Key} (h : keyOf c = some e) : keyCode e = c := by
  have key : ∀ c : BitVec 3, ∀ q ∈ keyOf c, keyCode q = c := by decide
  exact key c e h

theorem keyCode_injective : Function.Injective keyCode := fun a b h => by
  have := congrArg keyOf h
  simpa using this

@[simp] theorem keyOfOrdinal_keyOrdinal (k : Key) : keyOfOrdinal (keyOrdinal k) = k := by
  cases k <;> decide

/-- The phase code after MUX.ADV, one step of the counter modulo ten. -/
theorem phaseCode_nextPhase (p : Phase) :
    (phaseCode (nextPhase p)).toNat = ((phaseCode p).toNat + 1) % 10 := by
  cases p with
  | serializing b => obtain ⟨b⟩ := b; revert b; decide
  | latching => decide
  | settled => decide

/-- The slot number after its successor, one step of the counter modulo eight. -/
theorem succSlot_toNat (d : Slot) : (succSlot d).code.toNat = (d.code.toNat + 1) % 8 := by
  obtain ⟨c⟩ := d; revert c; decide

/-- The bits of a reversed byte (R9). -/
theorem reverse8_getLsbD (v : Byte) {i : Nat} (h : i < 8) : (reverse8 v).getLsbD i = v.getLsbD (7 - i) := by
  rw [reverse8, BitVec.getLsbD_reverse, BitVec.getMsbD]
  simp [h]

/-- The key found first is asserted. -/
theorem sample_of_firstPressed {keyN : BitVec 4} {k : Key} (h : firstPressed keyN = some k) :
    sample keyN k = false := by
  have := List.find?_some h
  simpa using this

/-- Nothing is found when every line is high. -/
@[simp] theorem firstPressed_released : firstPressed 0b1111#4 = none := by decide

@[simp] theorem sample_released (k : Key) : sample 0b1111#4 k = true := by cases k <;> decide

end Sys2Proof.Machine
end

