-- ==== Sys2Proof/Laws/State.lean ====
section
/-! SUPPORT. What each named update of the state leaves in each field. -/

namespace Sys2Proof.Machine

@[simp] theorem State.drive_eq_emit (l : Line) (v : Level) (s : State) : s.drive l v = s.emit (.line l v) := rfl
@[simp] theorem State.driveSel_eq_emit (v : BitVec 3) (s : State) : s.driveSel v = s.emit (.sel v) := rfl
@[simp] theorem State.lines_data (s : State) : s.lines.data = s.data := rfl
@[simp] theorem State.lines_sck (s : State) : s.lines.sck = s.sck := rfl
@[simp] theorem State.lines_lck (s : State) : s.lines.lck = s.lck := rfl
@[simp] theorem State.lines_sel (s : State) : s.lines.sel = s.sel := rfl

@[simp] theorem State.emit_slot (e : LineEvent) (s : State) : (s.emit e).slot = s.slot := rfl
@[simp] theorem State.emit_phase (e : LineEvent) (s : State) : (s.emit e).phase = s.phase := rfl
@[simp] theorem State.emit_data (e : LineEvent) (s : State) : (s.emit e).data = (s.lines.after e).data := rfl
@[simp] theorem State.emit_sck (e : LineEvent) (s : State) : (s.emit e).sck = (s.lines.after e).sck := rfl
@[simp] theorem State.emit_lck (e : LineEvent) (s : State) : (s.emit e).lck = (s.lines.after e).lck := rfl
@[simp] theorem State.emit_sel (e : LineEvent) (s : State) : (s.emit e).sel = (s.lines.after e).sel := rfl
@[simp] theorem State.emit_muxDelay (e : LineEvent) (s : State) : (s.emit e).muxDelay = s.muxDelay := rfl
@[simp] theorem State.emit_latched (e : LineEvent) (s : State) : (s.emit e).latched = s.latched := rfl
@[simp] theorem State.emit_keyEvt (e : LineEvent) (s : State) : (s.emit e).keyEvt = s.keyEvt := rfl
@[simp] theorem State.emit_keyWait (e : LineEvent) (s : State) : (s.emit e).keyWait = s.keyWait := rfl
@[simp] theorem State.emit_pCfg (e : LineEvent) (s : State) : (s.emit e).pCfg = s.pCfg := rfl
@[simp] theorem State.emit_tShift (e : LineEvent) (s : State) : (s.emit e).tShift = s.tShift := rfl
@[simp] theorem State.emit_settle (e : LineEvent) (s : State) : (s.emit e).settle = s.settle := rfl
@[simp] theorem State.emit_tDebounce (e : LineEvent) (s : State) : (s.emit e).tDebounce = s.tDebounce := rfl
@[simp] theorem State.emit_trace (e : LineEvent) (s : State) : (s.emit e).trace = s.trace ++ [e] := rfl
@[simp] theorem State.emit_muxReturns (e : LineEvent) (s : State) : (s.emit e).muxReturns = s.muxReturns := rfl
@[simp] theorem State.emit_keyReturns (e : LineEvent) (s : State) : (s.emit e).keyReturns = s.keyReturns := rfl
@[simp] theorem State.emit_shiftEdge (e : LineEvent) (s : State) : (s.emit e).shiftEdge = s.shiftEdge := rfl
@[simp] theorem State.emit_dev (e : LineEvent) (s : State) : (s.emit e).dev = s.dev.see s.shiftEdge s.lines e := rfl
@[simp] theorem State.emit_host (e : LineEvent) (s : State) : (s.emit e).host = s.host := rfl
@[simp] theorem State.emit_lines (e : LineEvent) (s : State) : (s.emit e).lines = s.lines.after e := rfl

@[simp] theorem State.returnDelay_slot (d : Nat) (s : State) : (s.returnDelay d).slot = s.slot := rfl
@[simp] theorem State.returnDelay_phase (d : Nat) (s : State) : (s.returnDelay d).phase = s.phase := rfl
@[simp] theorem State.returnDelay_data (d : Nat) (s : State) : (s.returnDelay d).data = s.data := rfl
@[simp] theorem State.returnDelay_sck (d : Nat) (s : State) : (s.returnDelay d).sck = s.sck := rfl
@[simp] theorem State.returnDelay_lck (d : Nat) (s : State) : (s.returnDelay d).lck = s.lck := rfl
@[simp] theorem State.returnDelay_sel (d : Nat) (s : State) : (s.returnDelay d).sel = s.sel := rfl
@[simp] theorem State.returnDelay_muxDelay (d : Nat) (s : State) : (s.returnDelay d).muxDelay = d := rfl
@[simp] theorem State.returnDelay_latched (d : Nat) (s : State) : (s.returnDelay d).latched = s.latched := rfl
@[simp] theorem State.returnDelay_keyEvt (d : Nat) (s : State) : (s.returnDelay d).keyEvt = s.keyEvt := rfl
@[simp] theorem State.returnDelay_keyWait (d : Nat) (s : State) : (s.returnDelay d).keyWait = s.keyWait := rfl
@[simp] theorem State.returnDelay_pCfg (d : Nat) (s : State) : (s.returnDelay d).pCfg = s.pCfg := rfl
@[simp] theorem State.returnDelay_tShift (d : Nat) (s : State) : (s.returnDelay d).tShift = s.tShift := rfl
@[simp] theorem State.returnDelay_settle (d : Nat) (s : State) : (s.returnDelay d).settle = s.settle := rfl
@[simp] theorem State.returnDelay_tDebounce (d : Nat) (s : State) : (s.returnDelay d).tDebounce = s.tDebounce := rfl
@[simp] theorem State.returnDelay_trace (d : Nat) (s : State) : (s.returnDelay d).trace = s.trace := rfl
@[simp] theorem State.returnDelay_muxReturns (d : Nat) (s : State) : (s.returnDelay d).muxReturns = s.muxReturns ++ [d] := rfl
@[simp] theorem State.returnDelay_keyReturns (d : Nat) (s : State) : (s.returnDelay d).keyReturns = s.keyReturns := rfl
@[simp] theorem State.returnDelay_shiftEdge (d : Nat) (s : State) : (s.returnDelay d).shiftEdge = s.shiftEdge := rfl
@[simp] theorem State.returnDelay_dev (d : Nat) (s : State) : (s.returnDelay d).dev = s.dev := rfl
@[simp] theorem State.returnDelay_host (d : Nat) (s : State) : (s.returnDelay d).host = s.host := rfl
@[simp] theorem State.returnDelay_lines (d : Nat) (s : State) : (s.returnDelay d).lines = s.lines := rfl

@[simp] theorem State.returnKey_slot (e : Option Key) (w : Nat) (s : State) : (s.returnKey e w).slot = s.slot := rfl
@[simp] theorem State.returnKey_phase (e : Option Key) (w : Nat) (s : State) : (s.returnKey e w).phase = s.phase := rfl
@[simp] theorem State.returnKey_data (e : Option Key) (w : Nat) (s : State) : (s.returnKey e w).data = s.data := rfl
@[simp] theorem State.returnKey_sck (e : Option Key) (w : Nat) (s : State) : (s.returnKey e w).sck = s.sck := rfl
@[simp] theorem State.returnKey_lck (e : Option Key) (w : Nat) (s : State) : (s.returnKey e w).lck = s.lck := rfl
@[simp] theorem State.returnKey_sel (e : Option Key) (w : Nat) (s : State) : (s.returnKey e w).sel = s.sel := rfl
@[simp] theorem State.returnKey_muxDelay (e : Option Key) (w : Nat) (s : State) : (s.returnKey e w).muxDelay = s.muxDelay := rfl
@[simp] theorem State.returnKey_latched (e : Option Key) (w : Nat) (s : State) : (s.returnKey e w).latched = s.latched := rfl
@[simp] theorem State.returnKey_keyEvt (e : Option Key) (w : Nat) (s : State) : (s.returnKey e w).keyEvt = keyCode e := rfl
@[simp] theorem State.returnKey_keyWait (e : Option Key) (w : Nat) (s : State) : (s.returnKey e w).keyWait = w := rfl
@[simp] theorem State.returnKey_pCfg (e : Option Key) (w : Nat) (s : State) : (s.returnKey e w).pCfg = s.pCfg := rfl
@[simp] theorem State.returnKey_tShift (e : Option Key) (w : Nat) (s : State) : (s.returnKey e w).tShift = s.tShift := rfl
@[simp] theorem State.returnKey_settle (e : Option Key) (w : Nat) (s : State) : (s.returnKey e w).settle = s.settle := rfl
@[simp] theorem State.returnKey_tDebounce (e : Option Key) (w : Nat) (s : State) : (s.returnKey e w).tDebounce = s.tDebounce := rfl
@[simp] theorem State.returnKey_trace (e : Option Key) (w : Nat) (s : State) : (s.returnKey e w).trace = s.trace := rfl
@[simp] theorem State.returnKey_muxReturns (e : Option Key) (w : Nat) (s : State) : (s.returnKey e w).muxReturns = s.muxReturns := rfl
@[simp] theorem State.returnKey_keyReturns (e : Option Key) (w : Nat) (s : State) : (s.returnKey e w).keyReturns = s.keyReturns ++ [(e, w)] := rfl
@[simp] theorem State.returnKey_shiftEdge (e : Option Key) (w : Nat) (s : State) : (s.returnKey e w).shiftEdge = s.shiftEdge := rfl
@[simp] theorem State.returnKey_dev (e : Option Key) (w : Nat) (s : State) : (s.returnKey e w).dev = s.dev := rfl
@[simp] theorem State.returnKey_host (e : Option Key) (w : Nat) (s : State) : (s.returnKey e w).host = s.host := rfl
@[simp] theorem State.returnKey_lines (e : Option Key) (w : Nat) (s : State) : (s.returnKey e w).lines = s.lines := rfl

@[simp] theorem State.writeLatched_slot (k : Option Key) (s : State) : (s.writeLatched k).slot = s.slot := rfl
@[simp] theorem State.writeLatched_phase (k : Option Key) (s : State) : (s.writeLatched k).phase = s.phase := rfl
@[simp] theorem State.writeLatched_data (k : Option Key) (s : State) : (s.writeLatched k).data = s.data := rfl
@[simp] theorem State.writeLatched_sck (k : Option Key) (s : State) : (s.writeLatched k).sck = s.sck := rfl
@[simp] theorem State.writeLatched_lck (k : Option Key) (s : State) : (s.writeLatched k).lck = s.lck := rfl
@[simp] theorem State.writeLatched_sel (k : Option Key) (s : State) : (s.writeLatched k).sel = s.sel := rfl
@[simp] theorem State.writeLatched_muxDelay (k : Option Key) (s : State) : (s.writeLatched k).muxDelay = s.muxDelay := rfl
@[simp] theorem State.writeLatched_latched (k : Option Key) (s : State) : (s.writeLatched k).latched = keyCode k := rfl
@[simp] theorem State.writeLatched_keyEvt (k : Option Key) (s : State) : (s.writeLatched k).keyEvt = s.keyEvt := rfl
@[simp] theorem State.writeLatched_keyWait (k : Option Key) (s : State) : (s.writeLatched k).keyWait = s.keyWait := rfl
@[simp] theorem State.writeLatched_pCfg (k : Option Key) (s : State) : (s.writeLatched k).pCfg = s.pCfg := rfl
@[simp] theorem State.writeLatched_tShift (k : Option Key) (s : State) : (s.writeLatched k).tShift = s.tShift := rfl
@[simp] theorem State.writeLatched_settle (k : Option Key) (s : State) : (s.writeLatched k).settle = s.settle := rfl
@[simp] theorem State.writeLatched_tDebounce (k : Option Key) (s : State) : (s.writeLatched k).tDebounce = s.tDebounce := rfl
@[simp] theorem State.writeLatched_trace (k : Option Key) (s : State) : (s.writeLatched k).trace = s.trace := rfl
@[simp] theorem State.writeLatched_muxReturns (k : Option Key) (s : State) : (s.writeLatched k).muxReturns = s.muxReturns := rfl
@[simp] theorem State.writeLatched_keyReturns (k : Option Key) (s : State) : (s.writeLatched k).keyReturns = s.keyReturns := rfl
@[simp] theorem State.writeLatched_shiftEdge (k : Option Key) (s : State) : (s.writeLatched k).shiftEdge = s.shiftEdge := rfl
@[simp] theorem State.writeLatched_dev (k : Option Key) (s : State) : (s.writeLatched k).dev = s.dev := rfl
@[simp] theorem State.writeLatched_host (k : Option Key) (s : State) : (s.writeLatched k).host = s.host := rfl
@[simp] theorem State.writeLatched_lines (k : Option Key) (s : State) : (s.writeLatched k).lines = s.lines := rfl

@[simp] theorem State.writePhase_slot (p : Phase) (s : State) : (s.writePhase p).slot = s.slot := rfl
@[simp] theorem State.writePhase_phase (p : Phase) (s : State) : (s.writePhase p).phase = phaseCode p := rfl
@[simp] theorem State.writePhase_data (p : Phase) (s : State) : (s.writePhase p).data = s.data := rfl
@[simp] theorem State.writePhase_sck (p : Phase) (s : State) : (s.writePhase p).sck = s.sck := rfl
@[simp] theorem State.writePhase_lck (p : Phase) (s : State) : (s.writePhase p).lck = s.lck := rfl
@[simp] theorem State.writePhase_sel (p : Phase) (s : State) : (s.writePhase p).sel = s.sel := rfl
@[simp] theorem State.writePhase_muxDelay (p : Phase) (s : State) : (s.writePhase p).muxDelay = s.muxDelay := rfl
@[simp] theorem State.writePhase_latched (p : Phase) (s : State) : (s.writePhase p).latched = s.latched := rfl
@[simp] theorem State.writePhase_keyEvt (p : Phase) (s : State) : (s.writePhase p).keyEvt = s.keyEvt := rfl
@[simp] theorem State.writePhase_keyWait (p : Phase) (s : State) : (s.writePhase p).keyWait = s.keyWait := rfl
@[simp] theorem State.writePhase_pCfg (p : Phase) (s : State) : (s.writePhase p).pCfg = s.pCfg := rfl
@[simp] theorem State.writePhase_tShift (p : Phase) (s : State) : (s.writePhase p).tShift = s.tShift := rfl
@[simp] theorem State.writePhase_settle (p : Phase) (s : State) : (s.writePhase p).settle = s.settle := rfl
@[simp] theorem State.writePhase_tDebounce (p : Phase) (s : State) : (s.writePhase p).tDebounce = s.tDebounce := rfl
@[simp] theorem State.writePhase_trace (p : Phase) (s : State) : (s.writePhase p).trace = s.trace := rfl
@[simp] theorem State.writePhase_muxReturns (p : Phase) (s : State) : (s.writePhase p).muxReturns = s.muxReturns := rfl
@[simp] theorem State.writePhase_keyReturns (p : Phase) (s : State) : (s.writePhase p).keyReturns = s.keyReturns := rfl
@[simp] theorem State.writePhase_shiftEdge (p : Phase) (s : State) : (s.writePhase p).shiftEdge = s.shiftEdge := rfl
@[simp] theorem State.writePhase_dev (p : Phase) (s : State) : (s.writePhase p).dev = s.dev := rfl
@[simp] theorem State.writePhase_host (p : Phase) (s : State) : (s.writePhase p).host = s.host := rfl
@[simp] theorem State.writePhase_lines (p : Phase) (s : State) : (s.writePhase p).lines = s.lines := rfl

@[simp] theorem State.writeSlot_slot (d : Slot) (s : State) : (s.writeSlot d).slot = d := rfl
@[simp] theorem State.writeSlot_phase (d : Slot) (s : State) : (s.writeSlot d).phase = s.phase := rfl
@[simp] theorem State.writeSlot_data (d : Slot) (s : State) : (s.writeSlot d).data = s.data := rfl
@[simp] theorem State.writeSlot_sck (d : Slot) (s : State) : (s.writeSlot d).sck = s.sck := rfl
@[simp] theorem State.writeSlot_lck (d : Slot) (s : State) : (s.writeSlot d).lck = s.lck := rfl
@[simp] theorem State.writeSlot_sel (d : Slot) (s : State) : (s.writeSlot d).sel = s.sel := rfl
@[simp] theorem State.writeSlot_muxDelay (d : Slot) (s : State) : (s.writeSlot d).muxDelay = s.muxDelay := rfl
@[simp] theorem State.writeSlot_latched (d : Slot) (s : State) : (s.writeSlot d).latched = s.latched := rfl
@[simp] theorem State.writeSlot_keyEvt (d : Slot) (s : State) : (s.writeSlot d).keyEvt = s.keyEvt := rfl
@[simp] theorem State.writeSlot_keyWait (d : Slot) (s : State) : (s.writeSlot d).keyWait = s.keyWait := rfl
@[simp] theorem State.writeSlot_pCfg (d : Slot) (s : State) : (s.writeSlot d).pCfg = s.pCfg := rfl
@[simp] theorem State.writeSlot_tShift (d : Slot) (s : State) : (s.writeSlot d).tShift = s.tShift := rfl
@[simp] theorem State.writeSlot_settle (d : Slot) (s : State) : (s.writeSlot d).settle = s.settle := rfl
@[simp] theorem State.writeSlot_tDebounce (d : Slot) (s : State) : (s.writeSlot d).tDebounce = s.tDebounce := rfl
@[simp] theorem State.writeSlot_trace (d : Slot) (s : State) : (s.writeSlot d).trace = s.trace := rfl
@[simp] theorem State.writeSlot_muxReturns (d : Slot) (s : State) : (s.writeSlot d).muxReturns = s.muxReturns := rfl
@[simp] theorem State.writeSlot_keyReturns (d : Slot) (s : State) : (s.writeSlot d).keyReturns = s.keyReturns := rfl
@[simp] theorem State.writeSlot_shiftEdge (d : Slot) (s : State) : (s.writeSlot d).shiftEdge = s.shiftEdge := rfl
@[simp] theorem State.writeSlot_dev (d : Slot) (s : State) : (s.writeSlot d).dev = s.dev := rfl
@[simp] theorem State.writeSlot_host (d : Slot) (s : State) : (s.writeSlot d).host = s.host := rfl
@[simp] theorem State.writeSlot_lines (d : Slot) (s : State) : (s.writeSlot d).lines = s.lines := rfl

@[simp] theorem State.withHost_slot (h : HostSide) (s : State) : (s.withHost h).slot = s.slot := rfl
@[simp] theorem State.withHost_phase (h : HostSide) (s : State) : (s.withHost h).phase = s.phase := rfl
@[simp] theorem State.withHost_data (h : HostSide) (s : State) : (s.withHost h).data = s.data := rfl
@[simp] theorem State.withHost_sck (h : HostSide) (s : State) : (s.withHost h).sck = s.sck := rfl
@[simp] theorem State.withHost_lck (h : HostSide) (s : State) : (s.withHost h).lck = s.lck := rfl
@[simp] theorem State.withHost_sel (h : HostSide) (s : State) : (s.withHost h).sel = s.sel := rfl
@[simp] theorem State.withHost_muxDelay (h : HostSide) (s : State) : (s.withHost h).muxDelay = s.muxDelay := rfl
@[simp] theorem State.withHost_latched (h : HostSide) (s : State) : (s.withHost h).latched = s.latched := rfl
@[simp] theorem State.withHost_keyEvt (h : HostSide) (s : State) : (s.withHost h).keyEvt = s.keyEvt := rfl
@[simp] theorem State.withHost_keyWait (h : HostSide) (s : State) : (s.withHost h).keyWait = s.keyWait := rfl
@[simp] theorem State.withHost_pCfg (h : HostSide) (s : State) : (s.withHost h).pCfg = s.pCfg := rfl
@[simp] theorem State.withHost_tShift (h : HostSide) (s : State) : (s.withHost h).tShift = s.tShift := rfl
@[simp] theorem State.withHost_settle (h : HostSide) (s : State) : (s.withHost h).settle = s.settle := rfl
@[simp] theorem State.withHost_tDebounce (h : HostSide) (s : State) : (s.withHost h).tDebounce = s.tDebounce := rfl
@[simp] theorem State.withHost_trace (h : HostSide) (s : State) : (s.withHost h).trace = s.trace := rfl
@[simp] theorem State.withHost_muxReturns (h : HostSide) (s : State) : (s.withHost h).muxReturns = s.muxReturns := rfl
@[simp] theorem State.withHost_keyReturns (h : HostSide) (s : State) : (s.withHost h).keyReturns = s.keyReturns := rfl
@[simp] theorem State.withHost_shiftEdge (h : HostSide) (s : State) : (s.withHost h).shiftEdge = s.shiftEdge := rfl
@[simp] theorem State.withHost_dev (h : HostSide) (s : State) : (s.withHost h).dev = s.dev := rfl
@[simp] theorem State.withHost_host (h : HostSide) (s : State) : (s.withHost h).host = h := rfl
@[simp] theorem State.withHost_lines (h : HostSide) (s : State) : (s.withHost h).lines = s.lines := rfl

@[simp] theorem State.withHost_withHost (h h' : HostSide) (s : State) : (s.withHost h).withHost h' = s.withHost h' := rfl
@[simp] theorem State.withHost_self (s : State) : s.withHost s.host = s := rfl

end Sys2Proof.Machine
end

