-- ==== Sys2Proof/Laws/Commands.lean ====
section
/-! SUPPORT. What each shared operation and each command can do, said once. -/

namespace Sys2Proof.Machine

/-- A recorded event replays like the rest of the trace. -/
theorem State.emit_traceAgrees {s : State} (e : LineEvent) (h : s.TraceAgrees) : (s.emit e).TraceAgrees := by
  have h' : replay s.shiftEdge resetLines unknownDevices s.trace = (s.lines, s.dev) := h
  change replay s.shiftEdge resetLines unknownDevices (s.trace ++ [e]) = _
  rw [replay_append, h']
  rfl

/-- What MUX.STEP answers: one of its three cases, by the phase, or the fault of an unreachable code. -/
theorem execMuxStep_cases (g : Glyphs) (s : State) :
    (∃ b, phaseOf s.phase = some (.serializing b) ∧ execMuxStep g s = .next (serializeStep g b s)) ∨
    (phaseOf s.phase = some .latching ∧ execMuxStep g s = .next (latchStep s)) ∨
    (phaseOf s.phase = some .settled ∧ execMuxStep g s = .next (settleStep s)) ∨
    (phaseOf s.phase = none ∧ execMuxStep g s = .fault .unreachablePhase) := by
  unfold execMuxStep
  split <;> simp_all

/-- MUX.STEP in Serializing. -/
theorem exec_muxStep_serializing {s : State} (g : Glyphs) {b : BitVec 3} (h : s.phase = 0#1 ++ b) :
    exec (.muxStep g) s = .next (serializeStep g ⟨b⟩ s) := by
  simp only [exec, execMuxStep, h, phaseOf_serializing]

/-- MUX.STEP in Latching. -/
theorem exec_muxStep_latching {s : State} (g : Glyphs) (h : s.phase = 0b1000#4) :
    exec (.muxStep g) s = .next (latchStep s) := by
  simp only [exec, execMuxStep, h, phaseOf_latching]

/-- MUX.STEP in Settled. -/
theorem exec_muxStep_settled {s : State} (g : Glyphs) (h : s.phase = 0b1001#4) :
    exec (.muxStep g) s = .next (settleStep s) := by
  simp only [exec, execMuxStep, h, phaseOf_settled]

/-- MUX.ADV at a legal phase. -/
theorem exec_muxAdv_of_phase {s : State} {p : Phase} (h : phaseOf s.phase = some p) :
    exec .muxAdv s = .next ((if p = .settled then s.writeSlot (succSlot s.slot) else s).writePhase (nextPhase p)) := by
  simp only [exec, execMuxAdv, h]

/-- KEY.SCAN with a key latched. -/
theorem exec_keyScan_latched {s : State} {k : Key} (keyN : BitVec 4) (h : s.latched = keyCode (some k)) :
    exec (.keyScan keyN) s = .next (scanLatched k keyN s) := by
  simp only [exec, execKeyScan, h, keyOf_keyCode]

/-- KEY.SCAN with nothing latched. -/
theorem exec_keyScan_unlatched {s : State} (keyN : BitVec 4) (h : s.latched = keyCode none) :
    exec (.keyScan keyN) s = .next (scanUnlatched keyN s) := by
  simp only [exec, execKeyScan, h, keyOf_keyCode]

/-- What MUX.ADV answers: the successor of the phase, with the slot's in Settled, or the fault of an unreachable code. -/
theorem execMuxAdv_cases (s : State) :
    (∃ p, phaseOf s.phase = some p ∧
      execMuxAdv s = .next ((if p = .settled then s.writeSlot (succSlot s.slot) else s).writePhase (nextPhase p))) ∨
    (phaseOf s.phase = none ∧ execMuxAdv s = .fault .unreachablePhase) := by
  unfold execMuxAdv
  split <;> simp_all

/-- What KEY.SCAN answers: by what is latched, or the fault of an unreachable code. -/
theorem execKeyScan_cases (keyN : BitVec 4) (s : State) :
    (∃ k, keyOf s.latched = some (some k) ∧ execKeyScan keyN s = .next (scanLatched k keyN s)) ∨
    (keyOf s.latched = some none ∧ execKeyScan keyN s = .next (scanUnlatched keyN s)) ∨
    (keyOf s.latched = none ∧ execKeyScan keyN s = .fault .unreachableKeyCode) := by
  unfold execKeyScan
  split <;> simp_all

/-- No command writes the host's side, the configuration or the attached register's edge. -/
theorem exec_frame {i : Instr} {s t : State} (h : exec i s = .next t) :
    t.host = s.host ∧ t.shiftEdge = s.shiftEdge ∧
    t.pCfg = s.pCfg ∧ t.tShift = s.tShift ∧ t.settle = s.settle ∧ t.tDebounce = s.tDebounce := by
  cases i with
  | nop => cases h; simp
  | muxStep g =>
    obtain ⟨b, -, e⟩ | ⟨-, e⟩ | ⟨-, e⟩ | ⟨-, e⟩ := execMuxStep_cases g s <;> cases e.symm.trans h <;>
      simp [serializeStep, latchStep, settleStep]
  | muxAdv =>
    obtain ⟨p, -, e⟩ | ⟨-, e⟩ := execMuxAdv_cases s <;> cases e.symm.trans h
    split <;> simp
  | keyScan k =>
    obtain ⟨k', -, e⟩ | ⟨-, e⟩ | ⟨-, e⟩ := execKeyScan_cases k s <;> cases e.symm.trans h
    · simp only [scanLatched]; split <;> simp
    · simp only [scanUnlatched]; split <;> simp

/-- The host's side changes nothing that a command does. -/
theorem exec_withHost (i : Instr) (h : HostSide) (s : State) :
    exec i (s.withHost h) = andThen (exec i s) fun t => .next (t.withHost h) := by
  cases i with
  | nop => rfl
  | muxStep g =>
    obtain ⟨b, e, e'⟩ | ⟨e, e'⟩ | ⟨e, e'⟩ | ⟨e, e'⟩ := execMuxStep_cases g s <;>
      simp only [exec, e', andThen] <;> simp only [execMuxStep, State.withHost_phase, e] <;> rfl
  | muxAdv =>
    obtain ⟨p, e, e'⟩ | ⟨e, e'⟩ := execMuxAdv_cases s <;>
      simp only [exec, e', andThen] <;> simp only [execMuxAdv, State.withHost_phase, e]
    split <;> rfl
  | keyScan k =>
    obtain ⟨k', e, e'⟩ | ⟨e, e'⟩ | ⟨e, e'⟩ := execKeyScan_cases k s <;>
      simp only [exec, e', andThen] <;> simp only [execKeyScan, State.withHost_latched, e]
    · simp only [scanLatched]; split <;> rfl
    · simp only [scanUnlatched]; split <;> rfl

@[simp] theorem andThen_next (s : State) (f : State → Host.Outcome State Fault Refusal) : andThen (.next s) f = f s := rfl
@[simp] theorem andThen_fault (r : Fault) (f : State → Host.Outcome State Fault Refusal) :
    andThen (.fault r) f = .fault r := rfl
@[simp] theorem andThen_refused (r : Refusal) (f : State → Host.Outcome State Fault Refusal) :
    andThen (.refused r) f = .refused r := rfl

@[simp] theorem execAll_nil (s : State) : execAll [] s = .next s := rfl
@[simp] theorem execAll_cons (i : Instr) (rest : List Instr) (s : State) :
    execAll (i :: rest) s = andThen (exec i s) (execAll rest) := rfl

/-- Commands are run one list after the other. -/
theorem execAll_append (p q : List Instr) (s : State) :
    execAll (p ++ q) s = andThen (execAll p s) (execAll q) := by
  induction p generalizing s with
  | nil => rfl
  | cons i rest ih =>
    simp only [List.cons_append, execAll_cons]
    cases exec i s <;> simp [ih]

end Sys2Proof.Machine
end

