-- ==== Sys2Proof/Laws/HostSide.lean ====
section
/-! SUPPORT. What the host's actions can do, and what they leave. -/

namespace Sys2Proof.Machine

/-- What a reset answers: the constructed state, or the refusal of a period that is not well formed. -/
theorem State.resetTo_cases (c : Construction) (s : State) :
    (c.pCfg > 9 * c.tShift ∧ s.resetTo c = .next (State.constructed c s.shiftEdge s.host.pending)) ∨
    (c.pCfg ≤ 9 * c.tShift ∧ s.resetTo c = .refused .badPeriod) := by
  unfold State.resetTo Construction.wellFormed
  by_cases h : c.pCfg > 9 * c.tShift
  · exact .inl ⟨h, by simp [h]⟩
  · exact .inr ⟨by omega, by simp [h]⟩

/-- A command that the host issues answers what it answers, with the host's record in place of the one it held. -/
theorem issue_eq (i : Instr) (s : State) :
    issue i s = andThen (exec i s) fun t =>
      .next (t.withHost (noteAfter i (t.withHost (noteBefore i s)))) := by
  unfold issue
  rw [exec_withHost]
  cases exec i s <;> simp

/-- What a step takes: nothing when nothing is pending, else the first action. -/
theorem step_eq (s : State) :
    step s = match s.host.pending with
      | [] => .next s
      | a :: rest => runAction a (s.withHost { s.host with pending := rest }) := rfl

@[simp] theorem HostSide.elapse_pending (n : Nat) (h : HostSide) : (h.elapse n).pending = h.pending := rfl
@[simp] theorem HostSide.elapse_owed (n : Nat) (h : HostSide) : (h.elapse n).owed = h.owed - n := rfl
@[simp] theorem HostSide.elapse_advNext (n : Nat) (h : HostSide) : (h.elapse n).advNext = h.advNext := rfl
@[simp] theorem HostSide.elapse_scanning (n : Nat) (h : HostSide) : (h.elapse n).scanning = h.scanning := rfl
@[simp] theorem HostSide.elapse_pause (n : Nat) (h : HostSide) : (h.elapse n).pause = h.pause - n := rfl
@[simp] theorem HostSide.elapse_digitGlyph (n : Nat) (h : HostSide) : (h.elapse n).digitGlyph = h.digitGlyph := rfl
@[simp] theorem HostSide.elapse_waits (n : Nat) (h : HostSide) : (h.elapse n).waits = h.waits := rfl
@[simp] theorem HostSide.elapse_violations (n : Nat) (h : HostSide) : (h.elapse n).violations = h.violations := rfl
@[simp] theorem HostSide.finishPause_pending (h : HostSide) : h.finishPause.pending = h.pending := rfl
@[simp] theorem HostSide.finishPause_owed (h : HostSide) : h.finishPause.owed = h.owed - h.pause := rfl
@[simp] theorem HostSide.finishPause_scanning (h : HostSide) : h.finishPause.scanning = false := rfl
@[simp] theorem HostSide.finishPause_pause (h : HostSide) : h.finishPause.pause = 0 := Nat.sub_self _
@[simp] theorem HostSide.finishPause_advNext (h : HostSide) : h.finishPause.advNext = h.advNext := rfl
@[simp] theorem HostSide.finishPause_digitGlyph (h : HostSide) : h.finishPause.digitGlyph = h.digitGlyph := rfl
@[simp] theorem HostSide.finishPause_waits (h : HostSide) : h.finishPause.waits = h.waits := rfl
@[simp] theorem HostSide.finishPause_violations (h : HostSide) : h.finishPause.violations = h.violations := rfl

@[simp] theorem HostSide.noteWait_pending (n : Nat) (h : HostSide) : (h.noteWait n).pending = h.pending := rfl
@[simp] theorem HostSide.noteWait_owed (n : Nat) (h : HostSide) : (h.noteWait n).owed = h.owed - n := rfl
@[simp] theorem HostSide.noteWait_advNext (n : Nat) (h : HostSide) : (h.noteWait n).advNext = h.advNext := rfl
@[simp] theorem HostSide.noteWait_scanning (n : Nat) (h : HostSide) : (h.noteWait n).scanning = h.scanning := rfl
@[simp] theorem HostSide.noteWait_pause (n : Nat) (h : HostSide) : (h.noteWait n).pause = h.pause - n := rfl
@[simp] theorem HostSide.noteWait_digitGlyph (n : Nat) (h : HostSide) : (h.noteWait n).digitGlyph = h.digitGlyph := rfl
@[simp] theorem HostSide.noteWait_waits (n : Nat) (h : HostSide) : (h.noteWait n).waits = h.waits ++ [n] := rfl
@[simp] theorem HostSide.noteWait_violations (n : Nat) (h : HostSide) : (h.noteWait n).violations = h.violations := rfl

@[simp] theorem HostSide.markIf_pending (b : Bool) (d : Duty) (h : HostSide) : (h.markIf b d).pending = h.pending := by
  unfold HostSide.markIf; split <;> rfl
@[simp] theorem HostSide.markIf_pause (b : Bool) (d : Duty) (h : HostSide) : (h.markIf b d).pause = h.pause := by
  unfold HostSide.markIf; split <;> rfl
@[simp] theorem HostSide.markIf_scanning (b : Bool) (d : Duty) (h : HostSide) : (h.markIf b d).scanning = h.scanning := by
  unfold HostSide.markIf; split <;> rfl
@[simp] theorem HostSide.markIf_waits (b : Bool) (d : Duty) (h : HostSide) : (h.markIf b d).waits = h.waits := by
  unfold HostSide.markIf; split <;> rfl
@[simp] theorem HostSide.markIf_owed (b : Bool) (d : Duty) (h : HostSide) : (h.markIf b d).owed = h.owed := by
  unfold HostSide.markIf; split <;> rfl
theorem HostSide.markIf_violations (b : Bool) (d : Duty) (h : HostSide) :
    (h.markIf b d).violations = h.violations ++ if b then [d] else [] := by
  unfold HostSide.markIf; split <;> simp

/-- What is marked as a command is issued: a MUX command while part of a delay is owed or out of turn, and a Serializing
step whose byte has changed; nothing at a NOP or a KEY.SCAN (R254, R255, R260). -/
theorem noteBefore_violations (i : Instr) (s : State) :
    (noteBefore i s).violations = s.host.violations ++ match i with
      | .nop => []
      | .keyScan _ => []
      | .muxStep g => (if s.host.owed != 0 then [.minimumDelay] else []) ++
          ((if s.host.advNext then [.alternation] else []) ++ if glyphChanged g s then [.glyphStability] else [])
      | .muxAdv => (if s.host.owed != 0 then [.minimumDelay] else []) ++ if !s.host.advNext then [.alternation] else [] := by
  cases i <;> simp [noteBefore, HostSide.markIf_violations]

/-- Issuing a command decides nothing about the pause before the command has answered. -/
@[simp] theorem noteBefore_scanning (i : Instr) (s : State) : (noteBefore i s).scanning = s.host.scanning := by
  cases i <;> simp [noteBefore]

/-- No note of the record touches the pending actions. -/
@[simp] theorem noteBefore_pending (i : Instr) (s : State) : (noteBefore i s).pending = s.host.pending := by
  cases i <;> simp [noteBefore]
@[simp] theorem noteAfter_pending (i : Instr) (s : State) : (noteAfter i s).pending = s.host.pending := by
  cases i <;> rfl

end Sys2Proof.Machine
end

