-- ==== Sys2Proof/Laws/PerInstr.lean ====
section
/-! SUPPORT. Statements for all instructions, one lemma for each constructor. -/

namespace Sys2Proof.Laws.ReadsBack

/-- A command's word, with its operand at the front of an operand list, reads back as the command and leaves the rest of
the list (R71, R72, R84). -/
def Statement (i : Instr) : Prop :=
  ∀ ops : List Operand, decodeWith (commandWord i) ((operandOf i).toList ++ ops) = .ok (i, ops)

theorem nop : Statement .nop := fun _ => rfl
theorem muxStep (g : Glyphs) : Statement (.muxStep g) := fun _ => rfl
theorem muxAdv : Statement .muxAdv := fun _ => rfl
theorem keyScan (keyN : BitVec 4) : Statement (.keyScan keyN) := fun _ => rfl

end Sys2Proof.Laws.ReadsBack
end

