-- ==== Sys2Proof/Tests/Slice0.lean ====
section
/-! SUPPORT. Tests of one step or one function each, their expected results taken from the spec (each comment names the
vector), and for every statement with hypotheses a witness that meets them together. -/

namespace Sys2Proof.Tests
open Sys2Proof Sys2Proof.Machine

/-- The example operand `G` of 95_test_vectors.md. -/
def exampleGlyphs : Glyphs := #v[0x3F#8, 0x06#8, 0x5B#8, 0x4F#8, 0x66#8, 0x6D#8, 0x7D#8, 0x07#8]

/-- The reset state with another phase code, slot and lines. -/
def stateAt (phase : BitVec 4) (slot : BitVec 3) (data sck lck : Level) (sel : BitVec 3) : State :=
  { State.reset with phase := phase, slot := ⟨slot⟩, data := data, sck := sck, lck := lck, sel := sel }

/-- The reset state with a LATCHED code. -/
def stateLatching (code : BitVec 3) : State := { State.reset with latched := code }

/-- The reset state whose host has actions to take. -/
def stateWith (p : List HostAction) : State := State.reset.withHost (.fresh p)

/-- Whether an outcome is a next state of which a test holds. -/
def nextIs (o : Host.Outcome State Fault Refusal) (p : State → Bool) : Bool :=
  match o with
  | .next t => p t
  | .fault _ => false
  | .refused _ => false

/-- Whether an outcome is a given fault. -/
def faultIs (o : Host.Outcome State Fault Refusal) (f : Fault) : Bool :=
  match o with
  | .next _ => false
  | .fault g => decide (g = f)
  | .refused _ => false

/-- Whether an outcome is a given refusal. -/
def refusalIs (o : Host.Outcome State Fault Refusal) (r : Refusal) : Bool :=
  match o with
  | .next _ => false
  | .fault _ => false
  | .refused q => decide (q = r)

/-- The six lines and MUX_DELAY of a state, as the vectors of L2.4 list them. -/
def linesAre (data sck lck : Level) (sel : BitVec 3) (delay : Nat) (s : State) : Bool :=
  s.data == data && s.sck == sck && s.lck == lck && s.sel == sel && s.muxDelay == delay

/-! Well-formedness: R201 and the table L2.2; no command is ill formed (R73). -/

theorem test_period_accepted :
    (Construction.wellFormed { pCfg := 1000, tShift := 2, tDebounce := 50 }) = true ∧
    (Construction.wellFormed { pCfg := 19, tShift := 2, tDebounce := 50 }) = true ∧
    (Construction.wellFormed { pCfg := 1, tShift := 0, tDebounce := 0 }) = true := by decide
theorem test_period_refused :
    (Construction.wellFormed { pCfg := 18, tShift := 2, tDebounce := 50 }) = false ∧
    (Construction.wellFormed { pCfg := 0, tShift := 0, tDebounce := 0 }) = false ∧
    (Construction.wellFormed { pCfg := 90, tShift := 10, tDebounce := 0 }) = false := by decide
theorem test_width_too_small (p : Platform) (h : p.durW = 9) :
    p.realizes { pCfg := 1000, tShift := 2, tDebounce := 50 } = false := by simp [Platform.realizes, h]
/-- Log entry 19: a width that P_CFG fits is accepted, whatever T_DEBOUNCE. -/
theorem test_width_asks_nothing_of_debounce (p : Platform) (h : p.durW = 10) :
    p.realizes { pCfg := 1000, tShift := 2, tDebounce := 2000 } = true := by simp [Platform.realizes, h]
theorem test_commands_well_formed : (Instr.muxStep exampleGlyphs).wellFormed = true ∧ (Instr.keyScan 0#4).wellFormed = true := by
  decide

/-! Decoding: the words of R71, written bit by bit. -/

theorem test_decode_nop : decode ⟨0b00#2, exampleGlyphs, 0b1111#4⟩ = .nop := by decide
theorem test_decode_muxStep : decode ⟨0b01#2, exampleGlyphs, 0b1111#4⟩ = .muxStep exampleGlyphs := by decide
theorem test_decode_muxAdv : decode ⟨0b10#2, exampleGlyphs, 0b1111#4⟩ = .muxAdv := by decide
theorem test_decode_keyScan : decode ⟨0b11#2, exampleGlyphs, 0b1010#4⟩ = .keyScan 0b1010#4 := by decide
theorem test_decode_word_too_wide : decodeTableWord 8 4 = none ∧ decodeTableWord 8 0xFF = none := by decide
/-- R84: `MUX.TICK g` encodes to `01 10`. -/
theorem test_tick_words : actionWords (muxTick exampleGlyphs) = [0b01#2, 0b10#2] := by decide
theorem test_program_errors :
    decodeProgram [0b01#2] [] = .error .missingOperand ∧
    decodeProgram [0b01#2] [.keys 0#4] = .error .wrongOperand ∧
    decodeProgram [0b10#2] [.keys 0#4] = .error .surplusOperand := by decide
/-- R82's spelling. -/
theorem test_line_text : lineText (.keyScan 0b1010#4) = "KEY.SCAN 0b1010" := by decide

/-! Fetching: the table's words placed after reset run as the first command. -/

theorem test_fetch_muxStep : nextIs (step (State.reset.withFetchWord 8 1)) (·.muxDelay == 982) = true := by decide
theorem test_fetch_muxAdv : nextIs (step (State.reset.withFetchWord 8 2)) (fun t => t.phase == 0#4 && t.slot == ⟨0#3⟩) = true := by
  decide
theorem test_fetch_keyScan : nextIs (step (State.reset.withFetchWord 8 3)) (·.keyEvt == 0b100#3) = true := by decide
theorem test_fetch_nop : nextIs (step (State.reset.withFetchWord 8 0)) (· == State.reset) = true := by decide

/-! Helper functions: L2.1. -/

theorem test_succSlot_wraps : succSlot ⟨7#3⟩ = ⟨0#3⟩ ∧ succSlot ⟨6#3⟩ = ⟨7#3⟩ := by decide
theorem test_firstPressed :
    firstPressed 0b1010#4 = some .s2 ∧ firstPressed 0b0011#4 = some .s4 ∧ firstPressed 0b0101#4 = some .s3 ∧
    firstPressed 0b0111#4 = some .s5 := by decide
/-- L2.7: `reverse8` of 3F is FC. -/
theorem test_reverse8 : reverse8 0x3F#8 = 0xFC#8 ∧ reverse8 0x5B#8 = 0xDA#8 := by decide
/-- I20's table: 5B with its decimal point is DB. -/
theorem test_dpVariant : dpVariant 0x5B#8 = 0xDB#8 := by decide

/-! MUX.STEP: vectors S1 to S10 of L2.4. -/

/-- S1. -/
theorem test_step_settled_after_reset :
    nextIs (exec (.muxStep exampleGlyphs) State.reset) (linesAre false false false 0#3 982) = true := by decide
/-- S4, the worked example of R102. -/
theorem test_step_serializing_two :
    nextIs (exec (.muxStep exampleGlyphs) (stateAt 2#4 2#3 true false false 0b010#3))
      (fun t => linesAre false false false 0b010#3 2 t &&
        t.trace == [.line .sck true, .line .data false, .line .sck false]) = true := by decide
/-- S6. -/
theorem test_step_latching :
    nextIs (exec (.muxStep exampleGlyphs) (stateAt 8#4 5#3 false false false 0b100#3))
      (linesAre false true true 0b101#3 2) = true := by decide

/-! MUX.ADV: vectors A1 and A5 of L2.5. -/

theorem test_adv_settled_wraps :
    nextIs (exec .muxAdv State.reset) (fun t => t.slot == ⟨0#3⟩ && t.phase == 0#4 && t.muxDelay == 0) = true := by decide
theorem test_adv_last_bit :
    nextIs (exec .muxAdv (stateAt 7#4 5#3 false false false 0#3)) (fun t => t.slot == ⟨5#3⟩ && t.phase == 8#4) = true := by decide

/-! KEY.SCAN: vectors K11 and K7 of L2.9. -/

theorem test_scan_release_ignores_others :
    nextIs (exec (.keyScan 0b0001#4) (stateLatching 0b100#3))
      (fun t => t.latched == 0#3 && t.keyEvt == 0#3 && t.keyWait == 0) = true := by decide
theorem test_scan_two_pressed :
    nextIs (exec (.keyScan 0b1010#4) State.reset)
      (fun t => t.latched == 0b100#3 && t.keyEvt == 0b100#3 && t.keyWait == 50) = true := by decide

/-! NOP: L2.10. -/

theorem test_nop_keeps_delay :
    nextIs (exec .nop { State.reset with muxDelay := 982 }) (fun t => t.muxDelay == 982 && t.trace.isEmpty) = true := by decide

/-! Stops: R75, R76, R201, R206. -/

theorem test_unreachable_phase : faultIs (exec .muxAdv (stateAt 10#4 0#3 false false false 0#3)) .unreachablePhase = true := by decide
theorem test_unreachable_latched : faultIs (exec (.keyScan 0#4) (stateLatching 0b011#3)) .unreachableKeyCode = true := by decide
theorem test_reset_refused :
    refusalIs (step (stateWith [.reset { pCfg := 18, tShift := 2, tDebounce := 50 }])) .badPeriod = true := by decide
theorem test_reentry_refused :
    refusalIs (step (State.reset.withHost
      { HostSide.fresh [.duringPause 0 (encode (.keyScan 0#4))] with pause := 50, scanning := true })) .protocolViolation = true := by decide

/-! Reset: L2.3, and the second accepted row of L2.2. -/

theorem test_reset_state :
    State.reset.slot = ⟨7#3⟩ ∧ State.reset.phase = 0b1001#4 ∧ State.reset.settle = 982 ∧ State.reset.trace = [] := by decide
theorem test_reset_smallest_settle :
    nextIs (step (stateWith [.reset { pCfg := 19, tShift := 2, tDebounce := 50 }])) (·.settle == 1) = true := by decide

/-! Devices: R210, R211 for both edges, by the step of S2 and the latch of S6. -/

theorem test_falling_edge_takes_the_new_bit :
    nextIs (exec (.muxStep exampleGlyphs) { stateAt 0#4 0#3 false false false 0#3 with shiftEdge := .falling })
      (fun t => t.dev.sr.s0 == some true) = true := by decide
theorem test_rising_edge_takes_the_old_bit :
    nextIs (exec (.muxStep exampleGlyphs) (stateAt 0#4 0#3 false false false 0#3))
      (fun t => t.dev.sr.s0 == some false && t.dev.sr.s1 == none) = true := by decide

/-! Witnesses of the statements' hypotheses, at the boundary values of their ranges. -/

/-- A platform for the witnesses. -/
def board : Platform where
  segOnLevel := true
  segStage := fun seg => ⟨7 - (segmentBit seg).code⟩
  glyphIndex := fun _ point => if point then 1 else 0
  glyphTable := fun n => if n = 1 then 0x80#8 else 0#8
  pointBit := fun _ => rfl
  pointVariant := fun _ _ => rfl
  durW := 10

theorem witness_numbersAboveThree : 4 ≤ 4 ∧ 4 < 2 ^ 3 ∧ 4 ≤ 255 ∧ 255 < 2 ^ 8 := by decide
theorem witness_programsReadBack :
    decodeProgram [0b01#2, 0b10#2, 0b11#2, 0b00#2] [.glyphs exampleGlyphs, .keys 0b1110#4] =
      .ok [.muxStep exampleGlyphs, .muxAdv, .keyScan 0b1110#4, .nop] := by decide
theorem witness_programsReadBack_wellFormed : (Instr.keyScan 0b1111#4).wellFormed = true := by decide
theorem witness_phaseCodes : 10 ≤ (10#4).toNat ∧ 10 ≤ (15#4).toNat := by decide
theorem witness_decimalPoint : (0x7F#8).getLsbD 7 = false := by decide
theorem witness_stepRuns_issue :
    (stateWith [.issue (encode .muxAdv)]).host.pending = .issue (encode .muxAdv) :: [] := rfl
theorem witness_stepRuns_duringPause :
    (stateWith [.duringPause 3 (encode .muxAdv)]).host.pending = .duringPause 3 (encode .muxAdv) :: [] ∧
    (encode .muxAdv).cmd ≠ 0b11#2 ∧
    (stateWith [.duringPause 0 (encode (.keyScan 0#4))]).host.pending = .duringPause 0 (encode (.keyScan 0#4)) :: [] ∧
    (stateWith [.duringPause 0 (encode (.keyScan 0#4))]).host.scanning = false := by decide
theorem witness_nop :
    (stateWith [.issue (encode .nop), .wait 3]).host.pending = .issue (encode .nop) :: [.wait 3] ∧
    (encode .nop).cmd = 0b00#2 ∧ (stateWith [.issue (encode .nop), .wait 3]).host.pause = 0 ∧
    (stateWith [.issue (encode .nop), .wait 3]).host.scanning = false := by decide
/-- The phases that StepActsUnderThePhase, StepMovesTheRegisterOnItsEdges, StepReadsOnlyTheCurrentSlotsGlyph and
AdvanceMovesToTheNextPhase split on. -/
theorem witness_phases :
    (stateAt 0#4 0#3 false false false 0#3).phase = 0#1 ++ 0#3 ∧ (0#3 : BitVec 3) ≠ 7#3 ∧
    (stateAt 6#4 0#3 false false false 0#3).phase = 0#1 ++ 6#3 ∧ (6#3 : BitVec 3) ≠ 7#3 ∧
    (stateAt 7#4 0#3 false false false 0#3).phase = 0#1 ++ 7#3 ∧ (stateAt 7#4 0#3 false false false 0#3).phase = 0b0111#4 ∧
    (stateAt 8#4 0#3 false false false 0#3).phase = 0b1000#4 ∧ State.reset.phase = 0b1001#4 := by decide
theorem witness_stepReadsOnly :
    glyphAt exampleGlyphs ⟨3#3⟩ = glyphAt (exampleGlyphs.set 1 0xFF#8) ⟨3#3⟩ ∧
    exampleGlyphs ≠ exampleGlyphs.set 1 0xFF#8 := by decide
/-- AdvanceCountsModuloEighty, EightyAdvancesReturn, RepeatedStepActsTwice, TenDelaysSumToThePeriod and
FullRefreshTakesEightPeriods. -/
theorem witness_legalPhase :
    (stateAt 0#4 0#3 false false false 0#3).phase.toNat < 10 ∧ (stateAt 0#4 0#3 false false false 0#3).ConfigLegal ∧
    State.reset.phase.toNat < 10 ∧ State.reset.ConfigLegal := by decide
theorem witness_oneDigitPhases : State.reset.phase = 0b1001#4 ∧ 0 < 10 ∧ 9 < 10 := by decide
theorem witness_selectChanges : ∃ t, exec .muxAdv State.reset = .next t := ⟨_, rfl⟩
theorem witness_oneDigit :
    (stateAt 0#4 1#3 false true false 0#3).phase = 0b0000#4 ∧ (stateAt 0#4 1#3 false true false 0#3).lck = false := by decide
theorem witness_latchedByte :
    ∀ b, b < 8 → (0x06#8).getLsbD b = (exampleGlyphs.get (stateAt 0#4 1#3 false true false 0#3).slot.code.toFin).getLsbD b := by
  decide
theorem witness_repeatedOrSkipped :
    0 < 8 ∧ 7 < 8 ∧
    ∀ n, n < 8 → (fun n => (0x06#8).getLsbD n) n =
      (exampleGlyphs.get (stateAt 0#4 1#3 false true false 0#3).slot.code.toFin).getLsbD n := by decide
theorem witness_skippedLatchOrSettle :
    (stateAt 8#4 0#3 false false false 0#3).phase = 0b1000#4 ∧
    (stateAt 9#4 0#3 false true true 0#3).phase = 0b1001#4 ∧ (stateAt 9#4 0#3 false true true 0#3).lck = true := by decide
theorem witness_firstCommands : Config.commonSetup.pCfg > 9 * Config.commonSetup.tShift ∧ Config.commonSetup.initSlot = ⟨7#3⟩ := by
  decide
theorem witness_unreachablePhase :
    10 ≤ (stateAt 10#4 0#3 false false false 0#3).phase.toNat ∧ 10 ≤ (stateAt 15#4 0#3 false false false 0#3).phase.toNat := by
  decide
theorem witness_unreachableLatched :
    1 ≤ (stateLatching 1#3).latched.toNat ∧ (stateLatching 1#3).latched.toNat ≤ 3 ∧
    1 ≤ (stateLatching 3#3).latched.toNat ∧ (stateLatching 3#3).latched.toNat ≤ 3 := by decide
theorem witness_scan :
    (stateLatching 0b100#3).latched = 1#1 ++ 0#2 ∧ (stateLatching 0b111#3).latched = 1#1 ++ 3#2 ∧
    State.reset.latched = 0b000#3 := by decide
theorem witness_latchSet : ∃ t, exec (.keyScan 0b1101#4) State.reset = .next t ∧ t.latched = keyCode (some .s3) := ⟨_, rfl, rfl⟩
theorem witness_oneEvent :
    State.reset.latched = keyCode none ∧ firstPressed 0b1010#4 = some .s2 ∧
    ∀ n ∈ [0b1010#4, 0b0000#4], sample n .s2 = false := by decide
theorem witness_release :
    (stateLatching 0b100#3).latched = keyCode (some .s2) ∧ sample 0b1011#4 .s2 = true ∧ State.reset.CodesLegal := by decide
theorem witness_otherKeys :
    (stateLatching 0b100#3).latched = keyCode (some .s2) ∧ sample 0b1110#4 .s2 = sample 0b0000#4 .s2 ∧
    sample 0b1011#4 .s2 = true ∧ firstPressed 0b1011#4 = some .s4 := by decide
theorem witness_oneSample :
    State.reset.latched = keyCode none ∧ firstPressed 0b1101#4 = some .s3 ∧
    (stateLatching 0b100#3).latched = keyCode (some .s2) ∧ sample 0b1111#4 .s2 = true ∧ firstPressed 0b1110#4 = some .s2 := by
  decide
theorem witness_scanAnswers : ∃ t, exec (.keyScan 0b1111#4) State.reset = .next t := ⟨_, rfl⟩
theorem witness_scanDepends :
    State.reset.latched = ({ stateAt 3#4 1#3 true true true 5#3 with tDebounce := 7 } : State).latched ∧
    ∃ t, exec (.keyScan 0b0111#4) State.reset = .next t := ⟨rfl, _, rfl⟩
theorem witness_commute :
    State.reset.CodesLegal ∧ (Instr.muxAdv = .muxAdv ∨ ∃ g, Instr.muxAdv = .muxStep g) ∧
    (Instr.muxStep exampleGlyphs = .muxAdv ∨ ∃ g, Instr.muxStep exampleGlyphs = .muxStep g) :=
  ⟨by decide, .inl rfl, .inr ⟨_, rfl⟩⟩
theorem witness_writeMap :
    (∃ t, exec (.muxStep exampleGlyphs) State.reset = .next t) ∧ ∃ t, State.reset.resetTo Config.commonSetup = .next t :=
  ⟨⟨_, rfl⟩, ⟨_, rfl⟩⟩
theorem witness_resetAction :
    (stateWith [.reset Config.commonSetup]).host.pending = .reset Config.commonSetup :: [] ∧
    Config.commonSetup.pCfg > 9 * Config.commonSetup.tShift ∧
    (stateWith [.reset ⟨18, 2, 50, ⟨7#3⟩⟩]).host.pending = .reset ⟨18, 2, 50, ⟨7#3⟩⟩ :: [] ∧ 18 ≤ 9 * 2 := by decide
theorem witness_resetRestarts : ∃ t, step (stateWith [.reset Config.commonSetup]) = .next t := ⟨_, rfl⟩
theorem witness_resetState : State.reset.shiftEdge = .rising ∧ State.reset.host.pending = [] := by decide
theorem witness_invariant : State.reset.Inv ∧ ∃ t, step (stateWith [.issue (encode .muxAdv)]) = .next t := ⟨by decide, _, rfl⟩
/-- A record that owes, has waited and has been marked, with the actions and the pause of a fresh one. -/
def guiltyHost (p : List HostAction) : HostSide :=
  { HostSide.fresh p with owed := 7, advNext := true, pause := 9, waits := [3], violations := [.alternation] }

theorem witness_brokenDuties :
    let s := stateWith [.issue (encode .muxAdv)]
    let h := guiltyHost [.issue (encode .muxAdv)]
    h.pending = s.host.pending ∧ h.scanning = s.host.scanning ∧ h ≠ s.host ∧ ∃ t, step s = .next t :=
  ⟨rfl, rfl, by decide, _, rfl⟩
theorem witness_brokenDuties_stops :
    let a := [HostAction.reset ⟨18, 2, 50, ⟨7#3⟩⟩]
    (guiltyHost a).pending = (stateWith a).host.pending ∧ (guiltyHost a).scanning = (stateWith a).host.scanning ∧
    step (stateWith a) = .refused .badPeriod ∧
    step ((stateWith [asmAdv]).writePhase .settled |> fun s => { s with phase := 15#4 }) = .fault .unreachablePhase :=
  ⟨rfl, rfl, rfl, rfl⟩
theorem witness_reentry :
    let s := State.reset.withHost { HostSide.fresh [.duringPause 1 (encode (.keyScan 0#4))] with scanning := true }
    s.host.pending = .duringPause 1 (encode (.keyScan 0#4)) :: [] ∧ (encode (.keyScan 0#4)).cmd = 0b11#2 ∧
    s.host.scanning = true := by decide
theorem witness_reentryRun :
    let scan := HostAction.issue (encode (.keyScan 0b1101#4))
    State.reset.latched = keyCode none ∧ firstPressed 0b1101#4 = some .s3 ∧ State.reset.tDebounce ≠ 0 ∧
    (stateWith [scan, .duringPause 9 (encode (.keyScan 0#4))]).host.pending =
      scan :: .duringPause 9 (encode (.keyScan 0#4)) :: [] ∧
    (stateWith [scan, .duringPause 1 (encode .nop), .duringPause 9 (encode (.keyScan 0#4))]).host.pending =
      scan :: .duringPause 1 (encode .nop) :: .duringPause 9 (encode (.keyScan 0#4)) :: [] ∧
    (encode .nop).cmd ≠ 0b11#2 ∧ State.reset.phase.toNat < 10 := by decide
theorem witness_pauseBegins :
    (stateWith [.issue (encode (.keyScan 0b1101#4))]).host.pending = .issue (encode (.keyScan 0b1101#4)) :: [] ∧
    ∃ t, step (stateWith [.issue (encode (.keyScan 0b1101#4))]) = .next t := ⟨rfl, _, rfl⟩
theorem witness_pauseGoesOn :
    let s := State.reset.withHost { HostSide.fresh [.duringPause 9 (encode .muxAdv)] with scanning := true, pause := 50 }
    s.host.pending = .duringPause 9 (encode .muxAdv) :: [] ∧ (encode .muxAdv).cmd ≠ 0b11#2 ∧ ∃ t, step s = .next t :=
  ⟨rfl, by decide, _, rfl⟩
theorem witness_pauseEnds :
    (stateWith [.wait 5]).host.pending = .wait 5 :: [] ∧ ∃ t, step (stateWith [.wait 5]) = .next t := ⟨rfl, _, rfl⟩
/-- R141, R256: a scan that confirms a press begins its pause of 50; one that reports none does not (R148). -/
theorem test_scan_begins_pause :
    nextIs (step (stateWith [.issue (encode (.keyScan 0b1101#4))])) (fun t => t.host.scanning && t.host.pause == 50) = true := by
  decide
theorem test_scan_without_press_begins_none :
    nextIs (step (stateWith [.issue (encode (.keyScan 0b1111#4))])) (fun t => !t.host.scanning && t.host.pause == 0) = true := by
  decide
theorem witness_noReentry :
    let s := State.reset.withHost { HostSide.fresh [.duringPause 0 (encode .muxAdv)] with scanning := true, pause := 1 }
    s.host.pending = .duringPause 0 (encode .muxAdv) :: [] ∧ (encode .muxAdv).cmd ≠ 0b11#2 ∧ s.phase.toNat < 10 := by decide
theorem witness_waiting :
    (stateWith [.wait 5]).host.pending = .wait 5 :: [] ∧ (stateWith [.waitMuxDelay]).host.pending = .waitMuxDelay :: [] ∧
    State.reset.host.pending = [] := by decide
theorem witness_brokenMuxDuties :
    ((stateWith [asmAdv]).host.pending = .issue (encode .muxAdv) :: [] ∧ 0 = (stateWith [asmAdv]).host.pause) ∧
    (∃ t, step (stateWith [asmAdv]) = .next t) ∧ (encode .muxAdv).cmd = 0b10#2 ∧
    (∃ t, step (stateWith [asmStep exampleGlyphs]) = .next t) ∧ (encode (.muxStep exampleGlyphs)).cmd = 0b01#2 ∧
    (∃ t, step (stateWith [.issue (encode .nop)]) = .next t) ∧ (encode .nop).cmd = 0b00#2 ∧
    (∃ t, step (stateWith [.issue (encode (.keyScan 0#4))]) = .next t) ∧ (encode (.keyScan 0#4)).cmd = 0b11#2 :=
  ⟨⟨rfl, rfl⟩, ⟨_, rfl⟩, rfl, ⟨_, rfl⟩, rfl, ⟨_, rfl⟩, rfl, ⟨_, rfl⟩, rfl⟩

/-- A host in the pause of a scan, one microsecond of it certain still to pass, with a delay of two owed, at a Serializing
phase whose byte has changed. -/
def hostInPause (a : HostAction) : State :=
  (stateAt 3#4 1#3 false false false 0#3).withHost
    { HostSide.fresh [a] with scanning := true, pause := 1, owed := 2, advNext := true, digitGlyph := some 0x3F#8 }

theorem witness_brokenMuxDuties_serializing :
    (hostInPause (.duringPause 1 (encode (.muxStep exampleGlyphs)))).host.pending =
      .duringPause 1 (encode (.muxStep exampleGlyphs)) :: [] ∧
    (∃ t, step (hostInPause (.duringPause 1 (encode (.muxStep exampleGlyphs)))) = .next t) ∧
    (hostInPause (.duringPause 1 (encode (.muxStep exampleGlyphs)))).phase.toNat < 8 ∧
    (0x3F#8 : Byte) ≠ exampleGlyphs.get 1 := ⟨rfl, ⟨_, rfl⟩, by decide, by decide⟩

/-- R254, R255, R260: an early, out-of-turn MUX.STEP with another byte breaks all three duties. -/
theorem test_all_three_marks :
    nextIs (step (hostInPause (.duringPause 1 (encode (.muxStep exampleGlyphs)))))
      (·.host.violations == [.minimumDelay, .alternation, .glyphStability]) = true := by decide
/-- R254: a MUX.STEP issued in a pause is owed its whole delay when the pause ends, so a MUX.ADV then is early. -/
theorem test_pause_counts_nothing_after_step :
    nextIs (andThen (step (hostInPause (.duringPause 0 (encode (.muxStep exampleGlyphs)))))
        fun t => step (t.withHost { t.host with pending := [asmAdv], violations := [] }))
      (·.host.violations == [.minimumDelay]) = true := by decide
/-- R260: MUX.ADV keeps the digit's byte within a digit, and forgets it as the slot moves. -/
theorem test_advance_keeps_byte :
    nextIs (step (hostInPause (.duringPause 1 (encode .muxAdv)))) (·.host.digitGlyph == some 0x3F#8) = true := by decide
theorem test_advance_to_next_digit_forgets_byte :
    nextIs (step { hostInPause (.duringPause 1 (encode .muxAdv)) with phase := 9#4 }) (·.host.digitGlyph == none) = true := by
  decide
/-- R262, program P4: the whole pause of a scan that began after the MUX.STEP counts toward its delay. -/
theorem test_pause_counts_before :
    nextIs (step ((stateAt 3#4 1#3 false false false 0#3).withHost
        { HostSide.fresh [asmAdv] with scanning := true, pause := 50, owed := 50, advNext := true }))
      (·.host.violations == []) = true := by decide
theorem witness_changedGlyphs :
    let s := (stateAt 3#4 1#3 false false false 0#3).withHost
      { HostSide.fresh [asmStep exampleGlyphs] with digitGlyph := some 0x3F#8 }
    s.host.pending = asmStep exampleGlyphs :: [] ∧ s.phase.toNat < 8 ∧ s.host.owed = 0 ∧ s.host.advNext = false ∧
    s.host.digitGlyph = some 0x3F#8 ∧ (stateAt 3#4 1#3 false false false 0#3).host.digitGlyph = none := by decide
theorem witness_tick :
    (stateWith (muxTick exampleGlyphs ++ [.wait 1])).phase.toNat < 10 ∧
    (stateWith (muxTick exampleGlyphs ++ [.wait 1])).host.pending = muxTick exampleGlyphs ++ [.wait 1] ∧
    (stateWith (muxTick exampleGlyphs ++ [.wait 1])).host.owed = 0 ∧
    (stateWith (muxTick exampleGlyphs ++ [.wait 1])).host.advNext = false ∧
    (stateWith (muxTick exampleGlyphs ++ [.wait 1])).host.digitGlyph = none := by decide
theorem witness_tick_midDigit :
    let s := (stateAt 3#4 1#3 false false false 0#3).withHost
      { HostSide.fresh (muxTick exampleGlyphs) with digitGlyph := some 0x06#8 }
    s.phase.toNat < 10 ∧ s.host.pending = muxTick exampleGlyphs ++ [] ∧ s.host.owed = 0 ∧ s.host.advNext = false ∧
    s.host.digitGlyph = some (exampleGlyphs.get s.slot.code.toFin) := by decide
theorem witness_durations : State.reset.Inv ∧ State.reset.pCfg < 2 ^ board.durW := by decide
theorem witness_shownDigit_rising :
    let s : State := { stateAt 8#4 5#3 true false false 0#3 with dev := { sr := Stages.ofByte 0x7E#8, out := .unknown } }
    s.phase = 0b1000#4 ∧ s.lck = false ∧
    (if s.shiftEdge = .rising ∧ s.sck = false then s.dev.sr.shiftIn s.data else s.dev.sr) = Stages.ofByte 0xFD#8 := by decide
theorem witness_shownDigit_falling :
    let s : State := { stateAt 8#4 5#3 true false false 0#3 with
      shiftEdge := .falling, dev := { sr := Stages.ofByte 0xFC#8, out := .unknown } }
    s.phase = 0b1000#4 ∧ s.lck = false ∧
    (if s.shiftEdge = .rising ∧ s.sck = false then s.dev.sr.shiftIn s.data else s.dev.sr) = Stages.ofByte 0xFC#8 := by decide
theorem witness_shownDigit_latchHigh :
    (stateAt 8#4 5#3 false true true 0#3).phase = 0b1000#4 ∧ (stateAt 8#4 5#3 false true true 0#3).lck = true := by decide
theorem witness_pointVariant : segmentMask (glyphOf board .blank false) .dp = false ∧ (Segment.a ≠ Segment.dp) := by decide

end Sys2Proof.Tests
end

