-- ==== Sys2Proof/Proofs/Scope.lean ====
section
/-! The multiplexer's durations under the invariant (00_scope.md, R7). -/

namespace Sys2Proof.Machine

/-- R27, R110. The 0 is of a run in which no MUX.STEP has returned yet. -/
theorem State.DelaysAgree.muxDelay_cases {s : State} (h : s.DelaysAgree) :
    s.muxDelay = 0 ∨ s.muxDelay = s.tShift ∨ s.muxDelay = s.settle := by
  obtain ⟨hlast, hall⟩ := h
  rcases List.eq_nil_or_concat s.muxReturns with hnil | ⟨earlier, d, hsnoc⟩
  · exact .inl (by rw [hlast, hnil, List.getLastD_nil])
  · have hd : s.muxDelay = d := by simp [hlast, hsnoc]
    exact .inr (hd ▸ hall d (by simp [hsnoc]))

theorem State.ConfigLegal.tShift_le_pCfg {s : State} (h : s.ConfigLegal) : s.tShift ≤ s.pCfg := by
  obtain ⟨hperiod, -⟩ := h
  omega

theorem State.ConfigLegal.settle_le_pCfg {s : State} (h : s.ConfigLegal) : s.settle ≤ s.pCfg := by
  obtain ⟨-, hsettle⟩ := h
  exact hsettle ▸ Nat.sub_le ..

theorem State.Inv.muxDelay_le_pCfg {s : State} (h : s.Inv) : s.muxDelay ≤ s.pCfg := by
  obtain ⟨-, hconfig, hdelays, -, -⟩ := h
  obtain hzero | hshift | hsettle := hdelays.muxDelay_cases
  · exact hzero ▸ Nat.zero_le _
  · exact hshift ▸ hconfig.tShift_le_pCfg
  · exact hsettle ▸ hconfig.settle_le_pCfg

/-- Settles O55: P_CFG bounds every other duration of the multiplexer. -/
theorem muxDurationsFitTheWidth : Obligations.MuxDurationsFitTheWidth := by
  intro p s hinv hfits
  have hmux : s.muxDelay ≤ s.pCfg := hinv.muxDelay_le_pCfg
  obtain ⟨-, hconfig, -, -, -⟩ := hinv
  exact ⟨hfits, hconfig.tShift_le_pCfg.trans_lt hfits, hconfig.settle_le_pCfg.trans_lt hfits, hmux.trans_lt hfits⟩

end Sys2Proof.Machine
end

