-- ==== Sys2Proof/Proofs/State.lean ====
section
/-! The write map of the block's commands (10_state.md, R40) and the host's reading of KEY_EVT (R29, R36). -/

namespace Sys2Proof.Machine

/-- R29, R76: a register that holds an event's code is read as that event. -/
theorem State.readKeyEvt_of_keyCode {s : State} {e : Option Key} (h : s.keyEvt = keyCode e) :
    s.readKeyEvt = .ok e := by
  simp only [State.readKeyEvt, h, keyOf_keyCode]

/-- R36: presence is read off the event, and a fault in reading it is passed on. -/
theorem State.keyEventPresent_of_readKeyEvt {s : State} {e : Option Key} (h : s.readKeyEvt = .ok e) :
    s.keyEventPresent = .ok e.isSome :=
  congrArg (Except.map Option.isSome) h

/-- Settles O54: the invariant ties KEY_EVT to the code of the last event returned, and that code reads back. -/
theorem hostReadsTheLastKeyEvent : Obligations.HostReadsTheLastKeyEvent := by
  intro s hinv
  obtain ⟨-, -, -, hscans, -⟩ := hinv
  obtain ⟨hlast, -, -⟩ := hscans
  have hread : s.readKeyEvt = .ok (s.keyReturns.getLastD (none, 0)).1 :=
    State.readKeyEvt_of_keyCode (congrArg Prod.fst hlast)
  exact ⟨hread, State.keyEventPresent_of_readKeyEvt hread⟩

/-- R75: the Serializing codes are those below eight. -/
theorem toNat_lt_of_phaseOf_serializing {c : BitVec 4} {b : BitIdx} (h : phaseOf c = some (.serializing b)) :
    c.toNat < 8 := by
  rw [← phaseCode_of_phaseOf h, phaseCode, BitVec.toNat_setWidth]
  omega

/-- R101: no phase is its own successor. -/
theorem phaseCode_nextPhase_ne {c : BitVec 4} {p : Phase} (h : phaseOf c = some p) :
    phaseCode (nextPhase p) ≠ c := by
  rintro rfl
  have hcode := congrArg BitVec.toNat (phaseCode_of_phaseOf h)
  rw [phaseCode_nextPhase] at hcode
  omega

/-- The map of R40 from a state, one constructor for each command and each phase that the map tells apart: the state after
the command differs from the one before in the elements listed, and the values a constructor leaves free are what the
map leaves to the other rules. -/
inductive WriteMap (s : State) : Instr → State → Prop
  | nop : WriteMap s .nop s
  | serializing (g : Glyphs) (data sck : Level) (delay : Nat) (trace : List LineEvent) (dev : Devices)
      (hphase : s.phase.toNat < 8) :
      WriteMap s (.muxStep g) { s with
        data := data, sck := sck, trace := trace, dev := dev
        muxDelay := delay, muxReturns := s.muxReturns ++ [delay] }
  | latching (g : Glyphs) (sck lck : Level) (sel : BitVec 3) (delay : Nat) (trace : List LineEvent) (dev : Devices)
      (hphase : s.phase = 0b1000#4) :
      WriteMap s (.muxStep g) { s with
        sck := sck, lck := lck, sel := sel, trace := trace, dev := dev
        muxDelay := delay, muxReturns := s.muxReturns ++ [delay] }
  | settled (g : Glyphs) (lck : Level) (delay : Nat) (trace : List LineEvent) (dev : Devices)
      (hphase : s.phase = 0b1001#4) :
      WriteMap s (.muxStep g) { s with
        lck := lck, trace := trace, dev := dev
        muxDelay := delay, muxReturns := s.muxReturns ++ [delay] }
  | advanceSlot (slot : Slot) (phase : BitVec 4) (hphase : s.phase = 0b1001#4) (hmoves : phase ≠ s.phase) :
      WriteMap s .muxAdv { s with slot := slot, phase := phase }
  | advance (phase : BitVec 4) (hmoves : phase ≠ s.phase) :
      WriteMap s .muxAdv { s with phase := phase }
  | scan (keyN : BitVec 4) (latched : BitVec 3) (e : Option Key) (wait : Nat) :
      WriteMap s (.keyScan keyN) { s with
        latched := latched, keyEvt := keyCode e, keyWait := wait
        keyReturns := s.keyReturns ++ [(e, wait)] }

theorem execMuxStep_writeMap {g : Glyphs} {s t : State} (h : execMuxStep g s = .next t) :
    WriteMap s (.muxStep g) t := by
  obtain ⟨b, hphase, e⟩ | ⟨hphase, e⟩ | ⟨hphase, e⟩ | ⟨-, e⟩ := execMuxStep_cases g s <;> cases e.symm.trans h
  · exact .serializing g _ _ _ _ _ (toNat_lt_of_phaseOf_serializing hphase)
  · exact .latching g _ _ _ _ _ _ (phaseCode_of_phaseOf hphase).symm
  · exact .settled g _ _ _ _ (phaseCode_of_phaseOf hphase).symm

theorem execMuxAdv_writeMap {s t : State} (h : execMuxAdv s = .next t) : WriteMap s .muxAdv t := by
  obtain ⟨p, hphase, e⟩ | ⟨-, e⟩ := execMuxAdv_cases s <;> cases e.symm.trans h
  have hmoves : phaseCode (nextPhase p) ≠ s.phase := phaseCode_nextPhase_ne hphase
  split
  case isTrue hsettled =>
    subst hsettled
    exact .advanceSlot _ _ (phaseCode_of_phaseOf hphase).symm hmoves
  case isFalse => exact .advance _ hmoves

theorem execKeyScan_writeMap {keyN : BitVec 4} {s t : State} (h : execKeyScan keyN s = .next t) :
    WriteMap s (.keyScan keyN) t := by
  obtain ⟨k, -, e⟩ | ⟨-, e⟩ | ⟨-, e⟩ := execKeyScan_cases keyN s <;> cases e.symm.trans h
  · rw [scanLatched]
    split <;> exact .scan keyN _ none 0
  · rw [scanUnlatched]
    split
    next k _ => exact .scan keyN _ (some k) _
    next => exact .scan keyN _ none 0

/-- A command that answers writes what the map says. -/
theorem exec_writeMap {i : Instr} {s t : State} (h : exec i s = .next t) : WriteMap s i t := by
  cases i with
  | nop => cases h; exact .nop
  | muxStep g => exact execMuxStep_writeMap h
  | muxAdv => exact execMuxAdv_writeMap h
  | keyScan keyN => exact execKeyScan_writeMap h

/-- R250: what a reset that is not refused leaves. -/
theorem State.eq_constructed_of_resetTo {c : Construction} {s t : State} (h : s.resetTo c = .next t) :
    t = State.constructed c s.shiftEdge s.host.pending := by
  obtain ⟨-, e⟩ | ⟨-, e⟩ := State.resetTo_cases c s <;> cases e.symm.trans h
  rfl

/-- Settles O39: each clause is read off the map's constructors, and the column of reset off the constructed state. -/
theorem commandsKeepTheWriteMap : Obligations.CommandsKeepTheWriteMap := by
  refine ⟨fun i s t h => ?_, fun c s t h => ?_⟩
  · cases exec_writeMap h with
    | nop => simp
    | serializing g data sck delay trace dev hphase => simp [hphase, Nat.lt_succ_of_lt hphase]
    | latching g sck lck sel delay trace dev hphase => simp [hphase]
    | settled g lck delay trace dev hphase => simp [hphase]
    | advanceSlot slot phase hphase hmoves => simpa [hphase] using hmoves
    | advance phase hmoves => simp [hmoves]
    | scan keyN latched e wait => simp
  · cases State.eq_constructed_of_resetTo h
    simp [State.constructed, phaseCode, keyCode]

end Sys2Proof.Machine
end

