-- ==== Sys2Proof/Proofs/Memory.lean ====
section
/-! The glyph operand in place of a memory (20_memory.md, R51) and the order of MUX and KEY commands (R62). -/

namespace Sys2Proof.Machine

/-- R51, R102: the data bit is a bit of the current slot's entry, and nothing else of the operand is read. -/
theorem serializeStep_congr {g g' : Glyphs} {s : State} (h : glyphAt g s.slot = glyphAt g' s.slot) (b : BitIdx) :
    serializeStep g b s = serializeStep g' b s := by
  simp only [serializeStep, glyphBit, h]

theorem exec_muxStep_congr {g g' : Glyphs} {s : State} (h : glyphAt g s.slot = glyphAt g' s.slot) :
    exec (.muxStep g) s = exec (.muxStep g') s := by
  simp only [exec, execMuxStep]
  cases phaseOf s.phase with
  | none => rfl
  | some p =>
    cases p with
    | serializing b => exact congrArg Host.Outcome.next (serializeStep_congr h b)
    | latching => rfl
    | settled => rfl

/-- Settles O11: only the Serializing case names the operand, and there it reads the entry of the current slot. -/
theorem stepReadsOnlyTheCurrentSlotsGlyph : Obligations.StepReadsOnlyTheCurrentSlotsGlyph := by
  refine fun s g g' => ⟨exec_muxStep_congr, ?_⟩
  rintro (hlatching | hsettled)
  · rw [exec_muxStep_latching g hlatching, exec_muxStep_latching g' hlatching]
  · rw [exec_muxStep_settled g hsettled, exec_muxStep_settled g' hsettled]

/-- R75, R76: with legal codes no command faults. -/
theorem exec_next_of_codesLegal {s : State} (h : s.CodesLegal) (i : Instr) : ∃ t, exec i s = .next t := by
  obtain ⟨hphase, hlatched, -⟩ := h
  cases i with
  | nop => exact ⟨_, rfl⟩
  | muxStep g =>
    obtain ⟨b, -, e⟩ | ⟨-, e⟩ | ⟨-, e⟩ | ⟨hnone, -⟩ := execMuxStep_cases g s
    · exact ⟨_, e⟩
    · exact ⟨_, e⟩
    · exact ⟨_, e⟩
    · simp [hnone] at hphase
  | muxAdv =>
    obtain ⟨p, -, e⟩ | ⟨hnone, -⟩ := execMuxAdv_cases s
    · exact ⟨_, e⟩
    · simp [hnone] at hphase
  | keyScan keyN =>
    obtain ⟨k, -, e⟩ | ⟨-, e⟩ | ⟨hnone, -⟩ := execKeyScan_cases keyN s
    · exact ⟨_, e⟩
    · exact ⟨_, e⟩
    · simp [hnone] at hlatched

/-- A state with the Key Scanner's elements of another: all that KEY.SCAN writes (R40, R141). -/
def State.withScannerOf (s u : State) : State :=
  { s with latched := u.latched, keyEvt := u.keyEvt, keyWait := u.keyWait, keyReturns := u.keyReturns }

@[simp] theorem State.withScannerOf_phase (s u : State) : (s.withScannerOf u).phase = s.phase := rfl

/-- R40: a command that is not the Key Scanner's leaves what KEY.SCAN reads. -/
theorem exec_keeps_scanner {i : Instr} {s t : State} (hi : isKeyCommand i = false) (h : exec i s = .next t) :
    t.latched = s.latched ∧ t.keyReturns = s.keyReturns ∧ t.tDebounce = s.tDebounce := by
  cases exec_writeMap h with
  | scan => cases hi
  | _ => exact ⟨rfl, rfl, rfl⟩

/-- R62: a command that is not the Key Scanner's neither reads nor writes the scanner's elements. -/
theorem exec_withScannerOf {i : Instr} (hi : isKeyCommand i = false) (s u : State) :
    exec i (s.withScannerOf u) = andThen (exec i s) fun t => .next (t.withScannerOf u) := by
  cases i with
  | nop => rfl
  | muxStep g =>
    simp only [exec, execMuxStep, State.withScannerOf_phase]
    cases phaseOf s.phase with
    | none => rfl
    | some p => cases p <;> rfl
  | muxAdv =>
    simp only [exec, execMuxAdv, State.withScannerOf_phase]
    cases phaseOf s.phase with
    | none => rfl
    | some p => cases p <;> rfl
  | keyScan keyN => cases hi

/-- R141: with a key latched, a scan writes the scanner's elements only, and reads the results so far. -/
theorem scanLatched_eq_withScannerOf {s t : State} (k : Key) (keyN : BitVec 4)
    (hlatched : t.latched = s.latched) (hreturns : t.keyReturns = s.keyReturns) :
    scanLatched k keyN t = t.withScannerOf (scanLatched k keyN s) := by
  simp only [scanLatched]
  split <;> simp [State.withScannerOf, State.returnKey, State.writeLatched, hlatched, hreturns]

/-- R141: with nothing latched, a scan writes the scanner's elements only, and reads T_DEBOUNCE and the results so far. -/
theorem scanUnlatched_eq_withScannerOf {s t : State} (keyN : BitVec 4) (hlatched : t.latched = s.latched)
    (hreturns : t.keyReturns = s.keyReturns) (hdebounce : t.tDebounce = s.tDebounce) :
    scanUnlatched keyN t = t.withScannerOf (scanUnlatched keyN s) := by
  simp only [scanUnlatched]
  split <;> simp [State.withScannerOf, State.returnKey, State.writeLatched, hlatched, hreturns, hdebounce]

/-- R62, R141: what KEY.SCAN writes is the same from every state that agrees on LATCHED, T_DEBOUNCE and the results so
far. -/
theorem exec_keyScan_of_agree {keyN : BitVec 4} {s t u : State} (hlatched : t.latched = s.latched)
    (hreturns : t.keyReturns = s.keyReturns) (hdebounce : t.tDebounce = s.tDebounce)
    (h : exec (.keyScan keyN) s = .next u) : exec (.keyScan keyN) t = .next (t.withScannerOf u) := by
  obtain ⟨k, hk, e⟩ | ⟨hnone, e⟩ | ⟨-, e⟩ := execKeyScan_cases keyN s <;> cases e.symm.trans h
  · rw [exec_keyScan_latched keyN (hlatched.trans (keyCode_of_keyOf hk).symm),
      scanLatched_eq_withScannerOf k keyN hlatched hreturns]
  · rw [exec_keyScan_unlatched keyN (hlatched.trans (keyCode_of_keyOf hnone).symm),
      scanUnlatched_eq_withScannerOf keyN hlatched hreturns hdebounce]

/-- R62: KEY.SCAN and a command that is not the Key Scanner's end in one state in either order. -/
theorem exec_keyScan_comm {i : Instr} {keyN : BitVec 4} {s t u : State} (hi : isKeyCommand i = false)
    (hother : exec i s = .next t) (hscan : exec (.keyScan keyN) s = .next u) :
    exec (.keyScan keyN) t = .next (t.withScannerOf u) ∧ exec i u = .next (t.withScannerOf u) := by
  obtain ⟨hlatched, hreturns, hdebounce⟩ := exec_keeps_scanner hi hother
  refine ⟨exec_keyScan_of_agree hlatched hreturns hdebounce hscan, ?_⟩
  have hu : u = s.withScannerOf u :=
    Host.Outcome.next.inj (hscan.symm.trans (exec_keyScan_of_agree rfl rfl rfl hscan))
  calc exec i u = exec i (s.withScannerOf u) := congrArg (exec i) hu
    _ = .next (t.withScannerOf u) := by rw [exec_withScannerOf hi, hother, andThen_next]

/-- Settles O38: neither command touches what the other reads or writes. -/
theorem muxAndKeyCommandsCommute : Obligations.MuxAndKeyCommandsCommute := by
  intro s m keyN hlegal hmux
  have hm : isKeyCommand m = false := by
    obtain rfl | ⟨g, rfl⟩ := hmux <;> rfl
  obtain ⟨t, ht⟩ := exec_next_of_codesLegal hlegal m
  obtain ⟨u, hu⟩ := exec_next_of_codesLegal hlegal (.keyScan keyN)
  obtain ⟨hscanned, hmoved⟩ := exec_keyScan_comm hm ht hu
  exact ⟨t.withScannerOf u, by simp [ht, hscanned], by simp [hu, hmoved]⟩

end Sys2Proof.Machine
end

