-- ==== Sys2Proof/Proofs/Encoding.lean ====
section
/-! Commands, programs and host actions as words (30_encoding.md, R70 to R72, R84), the decimal-point variant (R80), and
the host's WAIT and MUX.TICK (R82, R83). -/

namespace Sys2Proof.Machine

theorem decode_encode (i : Instr) : decode (encode i) = i := by
  cases i <;> rfl

theorem decodeWith_commandWord (i : Instr) : Laws.ReadsBack.Statement i := by
  cases i with
  | nop => exact Laws.ReadsBack.nop
  | muxStep g => exact Laws.ReadsBack.muxStep g
  | muxAdv => exact Laws.ReadsBack.muxAdv
  | keyScan keyN => exact Laws.ReadsBack.keyScan keyN

/-- R72, R84: what is read off a word and an operand list is the command of that word, with its operand from the front of
the list. -/
theorem encoding_of_decodeWith {w : BitVec 2} {ops left : List Operand} {i : Instr}
    (h : decodeWith w ops = .ok (i, left)) : commandWord i = w ∧ (operandOf i).toList ++ left = ops := by
  obtain rfl | rfl | rfl | rfl := command_word_cases w
  case inl => cases h; exact ⟨rfl, rfl⟩
  case inr.inr.inl => cases h; exact ⟨rfl, rfl⟩
  all_goals
    cases ops with
    | nil => cases h
    | cons op rest =>
      cases op <;> cases h
      exact ⟨rfl, rfl⟩

@[simp] theorem programWords_cons (i : Instr) (p : List Instr) :
    programWords (i :: p) = commandWord i :: programWords p := rfl

@[simp] theorem programOperands_cons (i : Instr) (p : List Instr) :
    programOperands (i :: p) = (operandOf i).toList ++ programOperands p := by
  cases i <;> rfl

/-- R84: a program ends where its words do, with every operand taken. -/
theorem decodeProgram_nil_eq_ok_iff {ops : List Operand} {p : List Instr} :
    decodeProgram [] ops = .ok p ↔ ops = [] ∧ p = [] := by
  cases ops <;> simp [decodeProgram, eq_comm]

/-- R84: a program is read one command at a time. -/
theorem decodeProgram_cons_eq_ok_iff {w : BitVec 2} {ws : List (BitVec 2)} {ops : List Operand} {p : List Instr} :
    decodeProgram (w :: ws) ops = .ok p ↔
      ∃ i left q, decodeWith w ops = .ok (i, left) ∧ decodeProgram ws left = .ok q ∧ p = i :: q := by
  rw [decodeProgram]
  cases decodeWith w ops with
  | error e => simp
  | ok read =>
    obtain ⟨i, left⟩ := read
    cases hrest : decodeProgram ws left <;> simp [Except.map, hrest, eq_comm]

theorem decodeProgram_encoding (p : List Instr) :
    decodeProgram (programWords p) (programOperands p) = .ok p := by
  induction p with
  | nil => rfl
  | cons i p ih =>
    rw [programWords_cons, programOperands_cons, decodeProgram_cons_eq_ok_iff]
    exact ⟨i, programOperands p, p, decodeWith_commandWord i _, ih, rfl⟩

theorem encoding_of_decodeProgram {ws : List (BitVec 2)} {ops : List Operand} {p : List Instr}
    (h : decodeProgram ws ops = .ok p) : programWords p = ws ∧ programOperands p = ops := by
  induction ws generalizing ops p with
  | nil =>
    obtain ⟨rfl, rfl⟩ := decodeProgram_nil_eq_ok_iff.mp h
    exact ⟨rfl, rfl⟩
  | cons w ws ih =>
    obtain ⟨i, left, q, hread, hrest, rfl⟩ := decodeProgram_cons_eq_ok_iff.mp h
    obtain ⟨hw, hops⟩ := encoding_of_decodeWith hread
    obtain ⟨hws, hleft⟩ := ih hrest
    rw [programWords_cons, programOperands_cons, hw, hws, hleft, hops]
    exact ⟨rfl, rfl⟩

/-- Settles O3: one command reads back with any operands after it, and both directions for programs follow by induction. -/
theorem programsReadBackFromTheirWords : Obligations.ProgramsReadBackFromTheirWords :=
  ⟨fun i _ => decode_encode i, decodeProgram_encoding, fun _ _ _ => encoding_of_decodeProgram⟩

theorem actionWords_append (p q : List HostAction) : actionWords (p ++ q) = actionWords p ++ actionWords q :=
  List.filterMap_append

theorem actionWords_repeated (n : Nat) (p : List HostAction) :
    actionWords (repeated n p) = (List.replicate n (actionWords p)).flatten := by
  induction n with
  | zero => rfl
  | succ k ih => rw [repeated, actionWords_append, ih, List.replicate_succ, List.flatten_cons]

theorem actionWords_programActions (p : List Instr) : actionWords (programActions p) = programWords p := by
  induction p with
  | nil => rfl
  | cons i p ih => exact congrArg (commandWord i :: ·) ih

theorem actionWords_muxTick (g : Glyphs) : actionWords (muxTick g) = [0b01#2, 0b10#2] := rfl

/-- Settles O53: only an action that presents a transaction contributes a word, and it is the word of its command. -/
theorem actionsEncodeToTheirWords : Obligations.ActionsEncodeToTheirWords := by
  refine ⟨actionWords_programActions, fun _ _ _ => ⟨rfl, rfl, rfl⟩, fun g => ⟨actionWords_muxTick g, ?_⟩⟩
  rw [muxDigit, actionWords_repeated, actionWords_muxTick]

theorem dpVariant_getLsbD (v : Byte) (i : Nat) : (dpVariant v).getLsbD i = (v.getLsbD i || decide (7 = i)) := by
  have hbit : 0x80#8 = BitVec.twoPow 8 7 := by decide
  simp [dpVariant, hbit, BitVec.getLsbD_twoPow]

/-- R79, R80: the variant has the decimal point's bit and is the glyph in every segment's. -/
theorem segmentMask_dpVariant (v : Byte) (seg : Segment) :
    segmentMask (dpVariant v) seg = (segmentMask v seg || decide (seg = .dp)) := by
  rw [segmentMask, dpVariant_getLsbD, segmentMask]
  cases seg <;> rfl

/-- Settles O6: the variant changes bit 7 alone, and the table's symbols are the platform's own promise. -/
theorem decimalPointVariantSetsBitSeven : Obligations.DecimalPointVariantSetsBitSeven := by
  refine ⟨fun v _ => ⟨rfl, by simp [segmentMask_dpVariant], fun i hi => ?_⟩,
    fun p sym => ⟨p.pointBit sym, fun hclear => ?_⟩⟩
  · simp [dpVariant_getLsbD, hi.ne']
  · have hvariant : glyphOf p sym true = dpVariant (glyphOf p sym false) := p.pointVariant sym hclear
    exact ⟨hvariant, fun seg hseg => by simp [hvariant, segmentMask_dpVariant, hseg]⟩

theorem step_of_pending {s : State} {a : HostAction} {rest : List HostAction} (h : s.host.pending = a :: rest) :
    step s = runAction a (s.withHost { s.host with pending := rest }) := by
  rw [step_eq, h]

/-- The state in which the host acts once the previous command has completed: its pause has run out, and the action is
taken from the list (R59, R206). -/
def State.acting (rest : List HostAction) (s : State) : State :=
  s.withHost ({ s.host with pending := rest } : HostSide).finishPause

/-- R82, R83: what a WAIT of either form does. -/
theorem step_wait {s : State} {a : HostAction} {n : Nat} {rest : List HostAction} (h : s.host.pending = a :: rest)
    (ha : a = .wait n ∨ (a = .waitMuxDelay ∧ n = s.muxDelay)) :
    step s = .next (s.withHost ((s.acting rest).host.noteWait n)) := by
  rw [step_of_pending h]
  obtain rfl | ⟨rfl, rfl⟩ := ha <;> rfl

/-- Settles O49: the state after a WAIT is the one before with another record. -/
theorem waitingChangesNoBlockState : Obligations.WaitingChangesNoBlockState := by
  refine ⟨fun s rest a n hpending ha => ?_, fun s hnone => ?_⟩
  · exact ⟨_, step_wait hpending ha, rfl, rfl, rfl, Nat.sub_sub .., rfl, rfl, rfl⟩
  · rw [step_eq, hnone]

/-- R59: a command issued once the previous one has completed has its effect on the block, between the two notes. -/
theorem step_issue {s v : State} {i : Instr} {rest : List HostAction}
    (h : s.host.pending = .issue (encode i) :: rest) (hexec : exec i s = .next v) :
    step s = .next (v.withHost (noteAfter i (v.withHost (noteBefore i (s.acting rest))))) := by
  rw [step_of_pending h, runAction, decode_encode, issue_eq]
  simp [exec_withHost, hexec, State.acting]

/-- R260: a digit not begun, or begun with the same byte, is no broken duty. -/
theorem glyphChanged_eq_false {g : Glyphs} {s : State}
    (h : s.host.digitGlyph = none ∨ s.host.digitGlyph = some (glyphAt g s.slot)) : glyphChanged g s = false := by
  unfold glyphChanged
  split
  next b x _ hx =>
    have hsame : x = glyphAt g s.slot := by simpa [hx] using h
    simp [hsame]
  next => rfl

/-- R254, R255, R260: the record of a MUX.STEP that breaks no duty. -/
theorem noteBefore_muxStep_of_kept {g : Glyphs} {s : State} (howed : s.host.owed = 0)
    (hturn : s.host.advNext = false) (hglyph : glyphChanged g s = false) :
    noteBefore (.muxStep g) s = { s.host with advNext := true, digitGlyph := digitGlyphAfterStep g s } := by
  simp [noteBefore, HostSide.markIf, howed, hturn, hglyph]

/-- R254, R255: the record of a MUX.ADV that breaks no duty. -/
theorem noteBefore_muxAdv_of_kept {s : State} (howed : s.host.owed = 0) (hturn : s.host.advNext = true) :
    noteBefore .muxAdv s = { s.host with owed := 0, advNext := false, digitGlyph := digitGlyphAfterAdv s } := by
  simp [noteBefore, HostSide.markIf, howed, hturn]

/-- R254, R255, R260: a MUX.STEP that breaks no duty leaves its delay owed and MUX.ADV due. -/
theorem step_muxStep_of_kept {s v : State} {g : Glyphs} {rest : List HostAction}
    (hpending : s.host.pending = asmStep g :: rest) (hexec : exec (.muxStep g) s = .next v)
    (howed : s.host.owed = 0) (hturn : s.host.advNext = false) (hglyph : glyphChanged g s = false) :
    step s = .next (v.withHost { s.host with
      pending := rest, owed := v.muxDelay, advNext := true, scanning := false, pause := 0
      digitGlyph := digitGlyphAfterStep g s }) := by
  have howed' : (s.acting rest).host.owed = 0 := by simp [State.acting, howed]
  rw [step_issue hpending hexec, noteBefore_muxStep_of_kept howed' hturn hglyph]
  rfl

/-- R254, R255: a MUX.ADV that breaks no duty leaves nothing owed and MUX.STEP due. -/
theorem step_muxAdv_of_kept {s v : State} {rest : List HostAction}
    (hpending : s.host.pending = asmAdv :: rest) (hexec : exec .muxAdv s = .next v)
    (howed : s.host.owed = 0) (hturn : s.host.advNext = true) :
    step s = .next (v.withHost { s.host with
      pending := rest, owed := 0, advNext := false, scanning := false, pause := 0
      digitGlyph := digitGlyphAfterAdv s }) := by
  have howed' : (s.acting rest).host.owed = 0 := by simp [State.acting, howed]
  rw [step_issue hpending hexec, noteBefore_muxAdv_of_kept howed' hturn]
  simp [noteAfter, State.acting, HostSide.finishPause, HostSide.elapse, digitGlyphAfterAdv]

theorem steps_succ_of_step {s t : State} (h : step s = .next t) (k : Nat) : steps (k + 1) s = steps k t := by
  rw [steps, h, andThen_next]

/-- R83: the three steps of a MUX.TICK; its WAIT is for the delay that its MUX.STEP left owed. -/
theorem steps_muxTick {s v u : State} {g : Glyphs} {rest : List HostAction}
    (hpending : s.host.pending = muxTick g ++ rest)
    (hstep : exec (.muxStep g) s = .next v) (hadv : exec .muxAdv v = .next u)
    (howed : s.host.owed = 0) (hturn : s.host.advNext = false) (hglyph : glyphChanged g s = false) :
    steps 3 s = .next (u.withHost { s.host with
      pending := rest, owed := 0, advNext := false, scanning := false, pause := 0
      digitGlyph := if phaseOf v.phase = some .settled then none else digitGlyphAfterStep g s
      waits := s.host.waits ++ [v.muxDelay] }) := by
  have hadv' (h : HostSide) : exec .muxAdv (v.withHost h) = .next (u.withHost h) := by
    rw [exec_withHost, hadv, andThen_next]
  refine (steps_succ_of_step (step_muxStep_of_kept hpending hstep howed hturn hglyph) 2).trans ?_
  refine (steps_succ_of_step (step_wait (rest := asmAdv :: rest) rfl (.inr ⟨rfl, rfl⟩)) 1).trans ?_
  refine (steps_succ_of_step (step_muxAdv_of_kept (rest := rest) rfl (hadv' _) (by exact Nat.sub_self _) rfl) 0).trans ?_
  rfl

/-- R75: one code stands for Settled. -/
theorem phaseOf_eq_settled_iff (c : BitVec 4) : phaseOf c = some .settled ↔ c = 0b1001#4 := by
  revert c; decide

theorem exec_muxStep_next_of_phaseOf {s : State} {p : Phase} (g : Glyphs) (h : phaseOf s.phase = some p) :
    ∃ v, exec (.muxStep g) s = .next v := by
  obtain ⟨b, -, e⟩ | ⟨-, e⟩ | ⟨-, e⟩ | ⟨hnone, -⟩ := execMuxStep_cases g s
  · exact ⟨_, e⟩
  · exact ⟨_, e⟩
  · exact ⟨_, e⟩
  · simp [hnone] at h

/-- R40. -/
theorem exec_muxStep_phase {g : Glyphs} {s v : State} (h : exec (.muxStep g) s = .next v) : v.phase = s.phase := by
  cases exec_writeMap h <;> rfl

/-- R40. -/
theorem exec_muxAdv_muxDelay {s v : State} (h : exec .muxAdv s = .next v) : v.muxDelay = s.muxDelay := by
  cases exec_writeMap h <;> rfl

/-- R260: the byte kept after a MUX.STEP whose glyph agrees with the digit's. -/
theorem digitGlyphAfterStep_of_agrees {g : Glyphs} {s : State}
    (h : s.host.digitGlyph = none ∨ s.host.digitGlyph = some (glyphAt g s.slot)) :
    digitGlyphAfterStep g s = if s.phase.toNat < 8 then some (glyphAt g s.slot) else s.host.digitGlyph := by
  split
  next hlt =>
    have hphase := (congrArg phaseOf (serializing_of_lt hlt)).trans (phaseOf_serializing _)
    obtain h | h := h <;> simp [digitGlyphAfterStep, hphase, h]
  next hge =>
    rw [digitGlyphAfterStep]
    split
    next hphase _ => exact absurd (toNat_lt_of_phaseOf_serializing hphase) hge
    next => rfl

/-- Settles O52: the WAIT pays what the MUX.STEP left owed, so each of the two commands breaks no duty. -/
theorem tickKeepsEveryDuty : Obligations.TickKeepsEveryDuty := by
  intro s g rest hlt hpending howed hturn hglyph
  obtain ⟨p, hp, -⟩ := phase_of_lt hlt
  obtain ⟨v, hstep⟩ := exec_muxStep_next_of_phaseOf g hp
  have hphase : v.phase = s.phase := exec_muxStep_phase hstep
  obtain ⟨u, hadv⟩ : ∃ u, exec .muxAdv v = .next u := ⟨_, exec_muxAdv_of_phase (hphase ▸ hp)⟩
  have hdelay : u.muxDelay = v.muxDelay := exec_muxAdv_muxDelay hadv
  refine ⟨_, u, steps_muxTick hpending hstep hadv howed hturn (glyphChanged_eq_false hglyph),
    by simp [hstep, hadv], rfl, rfl, rfl, rfl, rfl, by simp [hdelay], ?_⟩
  simp only [State.withHost_host, hphase, phaseOf_eq_settled_iff, digitGlyphAfterStep_of_agrees hglyph]
  rfl

end Sys2Proof.Machine
end

