-- ==== Sys2Proof/Proofs/DisplayMux.lean ====
section
/-! The laws and the corner cases of the Display Multiplexer (40_display_mux.md, R100 to R119). -/

namespace Sys2Proof.Machine

/-! The two commands, phase by phase. -/

/-- R211: a falling latch-clock moves no device. -/
@[simp] theorem Devices.see_lck_false (e : Edge) (ln : Lines) (d : Devices) : d.see e ln (.line .lck false) = d := by
  rw [Devices.see_lck, edgeOf_false]
  cases ln.lck <;> rfl

/-- Settles O9: the three cases of MUX.STEP, each with the fields that its events and its result write. -/
theorem stepActsUnderThePhase : Obligations.StepActsUnderThePhase := by
  refine fun s g => ⟨fun b hb => ?_, fun hlatching => ?_, fun hsettled => ?_⟩
  · refine ⟨_, _, exec_muxStep_serializing g hb, rfl, ?_⟩
    simp [serializeStep, State.emit, State.returnDelay, glyphBit, glyphAt]
  · refine ⟨_, exec_muxStep_latching g hlatching, ?_⟩
    simp [latchStep, State.emit, State.returnDelay, selCode]
  · rw [exec_muxStep_settled g hsettled]
    simp [settleStep, State.emit, State.returnDelay]

/-- R101, R104: below Settled, MUX.ADV counts the phase code and leaves the slot. -/
theorem exec_muxAdv_of_lt {s : State} (h : s.phase.toNat < 9) :
    exec .muxAdv s = .next { s with phase := s.phase + 1#4 } := by
  obtain ⟨p, hp, hcode⟩ := phase_of_lt (h.trans (by decide))
  have hunsettled : p ≠ .settled := by
    rintro rfl
    exact absurd h (by rw [← hcode]; decide)
  have hnext : phaseCode (nextPhase p) = s.phase + 1#4 := by
    apply BitVec.eq_of_toNat_eq
    rw [phaseCode_nextPhase, hcode, BitVec.toNat_add, BitVec.toNat_ofNat]
    omega
  rw [exec_muxAdv_of_phase hp, if_neg hunsettled, State.writePhase, hnext]

/-- R100, R104: in Settled, MUX.ADV starts the next digit. -/
theorem exec_muxAdv_settled {s : State} (h : s.phase = 0b1001#4) :
    exec .muxAdv s = .next { s with phase := 0b0000#4, slot := succSlot s.slot } := by
  rw [exec_muxAdv_of_phase (h ▸ phaseOf_settled)]
  rfl

/-- Settles O12: below Settled the codes are consecutive, so each clause is one step of the phase counter. -/
theorem advanceMovesToTheNextPhase : Obligations.AdvanceMovesToTheNextPhase := by
  refine fun s => ⟨fun b hb hlast => ?_, fun hlast => ?_, fun hlatching => ?_, exec_muxAdv_settled⟩
  · have hcount : ∀ b : BitVec 3, b ≠ 7#3 →
        (0#1 ++ b).toNat < 9 ∧ (0#1 ++ b) + 1#4 = 0#1 ++ (b + 1) := by decide
    obtain ⟨hlt, hnext⟩ := hcount b hlast
    rw [exec_muxAdv_of_lt (hb ▸ hlt), hb, hnext]
  · rw [exec_muxAdv_of_lt (by rw [hlast]; decide), hlast]
    rfl
  · rw [exec_muxAdv_of_lt (by rw [hlatching]; decide), hlatching]
    rfl

/-- Settles O16: only a Latching step names SEL, and only a MUX.ADV in Settled names SLOT. -/
theorem selectChangesOnlyAtLatching : Obligations.SelectChangesOnlyAtLatching := by
  intro i s t h
  cases exec_writeMap h with
  | latching g sck lck sel delay trace dev hphase =>
    have hsel : sel = s.slot.code :=
      congrArg State.sel (Host.Outcome.next.inj (h.symm.trans (exec_muxStep_latching g hphase)))
    exact ⟨.inr ⟨hphase, hsel⟩, .inl rfl⟩
  | advanceSlot slot phase hphase hmoves => exact ⟨.inl rfl, .inr hphase⟩
  | _ => exact ⟨.inl rfl, .inl rfl⟩

/-- Settles O26: reset leaves Settled with the latch-clock low, where lowering it is no edge. -/
theorem firstCommandsAfterReset : Obligations.FirstCommandsAfterReset := by
  intro c s g hperiod
  obtain ⟨-, hreset⟩ | ⟨hbad, -⟩ := State.resetTo_cases c s
  · refine ⟨_, _, _, hreset, exec_muxStep_settled g rfl, exec_muxAdv_settled rfl, rfl, rfl, rfl, rfl, rfl, ?_⟩
    intro hdefault
    simp [settleStep, State.constructed, hdefault, succSlot]
  · omega

/-! SLOT and PHASE as one counter. -/

/-- R105: the counter `10 * SLOT + code(PHASE)`. -/
def State.counter (s : State) : Nat := 10 * s.slot.code.toNat + s.phase.toNat

/-- The state with SLOT and PHASE where the counter of R105 stands at `n`, taken modulo 80. -/
def State.moveTo (n : Nat) (s : State) : State :=
  { s with slot := ⟨BitVec.ofNat 3 (n / 10)⟩, phase := BitVec.ofNat 4 (n % 10) }

theorem State.moveTo_slot_toNat (n : Nat) (s : State) : (s.moveTo n).slot.code.toNat = n / 10 % 8 :=
  BitVec.toNat_ofNat ..

theorem State.moveTo_phase_toNat (n : Nat) (s : State) : (s.moveTo n).phase.toNat = n % 10 :=
  (BitVec.toNat_ofNat ..).trans (by omega)

theorem State.moveTo_phase_lt (n : Nat) (s : State) : (s.moveTo n).phase.toNat < 10 := by
  rw [State.moveTo_phase_toNat]
  omega

/-- A state is where its own counter stands, and so is any state with that slot and phase. -/
theorem State.moveTo_of_toNat {s : State} {n : Nat} (hslot : n / 10 % 8 = s.slot.code.toNat)
    (hphase : n % 10 = s.phase.toNat) : s.moveTo n = s := by
  have hslot' : BitVec.ofNat 3 (n / 10) = s.slot.code :=
    BitVec.eq_of_toNat_eq ((BitVec.toNat_ofNat ..).trans hslot)
  have hphase' : BitVec.ofNat 4 (n % 10) = s.phase := by
    rw [hphase, BitVec.ofNat_toNat, BitVec.setWidth_eq]
  rw [State.moveTo, hslot', hphase']

theorem State.moveTo_counter {s : State} (h : s.phase.toNat < 10) : s.moveTo s.counter = s := by
  have hslot := s.slot.code.isLt
  refine State.moveTo_of_toNat ?_ ?_ <;> rw [State.counter] <;> omega

/-- R105: eighty steps take the counter round. -/
theorem State.moveTo_add_eighty (n : Nat) (s : State) : s.moveTo (n + 80) = s.moveTo n := by
  refine State.moveTo_of_toNat (s := s.moveTo n) ?_ ?_
  · rw [State.moveTo_slot_toNat]
    omega
  · rw [State.moveTo_phase_toNat]
    omega

/-- R105: MUX.ADV is one step of the counter. -/
theorem exec_muxAdv_moveTo (n : Nat) (s : State) : exec .muxAdv (s.moveTo n) = .next (s.moveTo (n + 1)) := by
  by_cases hlast : n % 10 = 9
  · have hslot : (n + 1) / 10 = n / 10 + 1 := by omega
    have hphase : (n + 1) % 10 = 0 := by omega
    rw [exec_muxAdv_settled (by simp [State.moveTo, hlast])]
    simp [State.moveTo, succSlot, hslot, hphase, BitVec.ofNat_add]
  · have hslot : (n + 1) / 10 = n / 10 := by omega
    have hphase : (n + 1) % 10 = n % 10 + 1 := by omega
    rw [exec_muxAdv_of_lt (by rw [State.moveTo_phase_toNat]; omega)]
    simp [State.moveTo, hslot, hphase, BitVec.ofNat_add]

theorem exec_muxAdv_of_legal {s : State} (h : s.phase.toNat < 10) :
    exec .muxAdv s = .next (s.moveTo (s.counter + 1)) := by
  rw [← exec_muxAdv_moveTo, State.moveTo_counter h]

/-- Settles O13: the counter after one more step, read back as SLOT and PHASE. -/
theorem advanceCountsModuloEighty : Obligations.AdvanceCountsModuloEighty := by
  intro s h
  have hslot := s.slot.code.isLt
  refine ⟨_, exec_muxAdv_of_legal h, ?_⟩
  rw [State.moveTo_slot_toNat, State.moveTo_phase_toNat, State.counter]
  refine ⟨?_, ?_, ?_⟩
  · omega
  · split <;> omega
  · omega

theorem execAll_replicate_muxAdv (k n : Nat) (s : State) :
    execAll (List.replicate k .muxAdv) (s.moveTo n) = .next (s.moveTo (n + k)) := by
  induction k generalizing n with
  | zero => rfl
  | succ k ih =>
    rw [List.replicate_succ, execAll_cons, exec_muxAdv_moveTo, andThen_next, ih, Nat.add_right_comm, Nat.add_assoc]

/-- Settles O14: eighty steps take the counter round once. -/
theorem eightyAdvancesReturn : Obligations.EightyAdvancesReturn := by
  refine ⟨fun d => ?_, fun s h => ?_⟩
  · obtain ⟨c⟩ := d
    revert c
    decide
  · have hround := execAll_replicate_muxAdv 80 s.counter s
    rwa [State.moveTo_add_eighty, State.moveTo_counter h] at hround

/-! Delays under the protocol. -/

@[simp] theorem execAll_tickList_cons (g : Glyphs) (gs : List Glyphs) (s : State) :
    execAll (tickList (g :: gs)) s =
      andThen (exec (.muxStep g) s) fun t => andThen (exec .muxAdv t) (execAll (tickList gs)) := rfl

theorem tickList_append (gs gs' : List Glyphs) : tickList (gs ++ gs') = tickList gs ++ tickList gs' :=
  List.flatMap_append

/-- R110: what MUX.STEP returns, phase by phase. -/
theorem exec_muxStep_returns (g : Glyphs) {s : State} (h : s.phase.toNat < 10) :
    ∃ t : State, exec (.muxStep g) s = .next t ∧
      t.muxReturns = s.muxReturns ++ [if s.phase = 0b1001#4 then s.settle else s.tShift] := by
  obtain hlt | hlatching | hsettled := phase_cases h
  · have hunsettled : s.phase ≠ 0b1001#4 := fun e => absurd hlt (by rw [e]; decide)
    exact ⟨_, exec_muxStep_serializing g (serializing_of_lt hlt), by simp [serializeStep, hunsettled]⟩
  · exact ⟨_, exec_muxStep_latching g hlatching, by simp [latchStep, hlatching]⟩
  · exact ⟨_, exec_muxStep_settled g hsettled, by simp [settleStep, hsettled]⟩

/-- R102: MUX.STEP leaves SLOT. -/
theorem exec_muxStep_slot {g : Glyphs} {s t : State} (h : exec (.muxStep g) s = .next t) : t.slot = s.slot := by
  cases exec_writeMap h <;> rfl

/-- R110: the delay that MUX.STEP returns where the counter of R105 stands at `n`. -/
def State.delayAt (s : State) (n : Nat) : Nat := if n % 10 = 9 then s.settle else s.tShift

/-- R102, R110: MUX.STEP leaves the counter and returns its phase's delay. -/
theorem exec_muxStep_moveTo (g : Glyphs) (n : Nat) (s : State) :
    ∃ t : State, exec (.muxStep g) (s.moveTo n) = .next (t.moveTo n) ∧
      t.muxReturns = s.muxReturns ++ [s.delayAt n] ∧ t.delayAt = s.delayAt := by
  obtain ⟨t, ht, hreturns⟩ := exec_muxStep_returns g (s.moveTo_phase_lt n)
  have hstays : t.moveTo n = t := by
    refine State.moveTo_of_toNat ?_ ?_
    · rw [exec_muxStep_slot ht, State.moveTo_slot_toNat]
    · rw [exec_muxStep_phase ht, State.moveTo_phase_toNat]
  obtain ⟨-, -, -, hshift, hsettle, -⟩ := exec_frame ht
  have hsettled : (s.moveTo n).phase = 0b1001#4 ↔ n % 10 = 9 := by
    rw [← BitVec.toNat_inj, State.moveTo_phase_toNat, BitVec.toNat_ofNat]
  refine ⟨t, hstays.symm ▸ ht, ?_, ?_⟩
  · simp only [hreturns, hsettled]
    rfl
  · funext m
    rw [State.delayAt, hshift, hsettle]
    rfl

/-- R107, R110: ticks from any phase move the counter once each, and return the delays of the phases passed. -/
theorem execAll_tickList_moveTo (gs : List Glyphs) (n : Nat) (s : State) :
    ∃ t : State, execAll (tickList gs) (s.moveTo n) = .next (t.moveTo (n + gs.length)) ∧
      t.muxReturns = s.muxReturns ++ (List.range' n gs.length).map s.delayAt := by
  induction gs generalizing n s with
  | nil => exact ⟨s, rfl, (List.append_nil _).symm⟩
  | cons g gs ih =>
    obtain ⟨u, hu, hureturns, hudelay⟩ := exec_muxStep_moveTo g n s
    obtain ⟨t, ht, htreturns⟩ := ih (n + 1) u
    refine ⟨t, ?_, ?_⟩
    · rw [execAll_tickList_cons, hu, andThen_next, exec_muxAdv_moveTo, andThen_next, ht, List.length_cons,
        Nat.add_assoc, Nat.add_comm 1]
    · simp [htreturns, hureturns, hudelay, List.range'_succ]

/-- Settles O15: from Settled the counter stands at `10 * d + 9`, and `n + 1` ticks later at `10 * (d + 1) + n`. -/
theorem oneDigitPhaseSequence : Obligations.OneDigitPhaseSequence := by
  intro s g n hsettled hn
  obtain ⟨t, ht, -⟩ := execAll_tickList_moveTo ((List.range (n + 1)).map g) s.counter s
  rw [State.moveTo_counter (by rw [hsettled]; decide)] at ht
  have hcounter : s.counter + ((List.range (n + 1)).map g).length = 10 * (s.slot.code.toNat + 1) + n := by
    rw [List.length_map, List.length_range, State.counter, hsettled, BitVec.toNat_ofNat]
    omega
  have hslot : (10 * (s.slot.code.toNat + 1) + n) / 10 = s.slot.code.toNat + 1 := by omega
  have hphase : (10 * (s.slot.code.toNat + 1) + n) % 10 = n := by omega
  refine ⟨_, ht, ?_, ?_⟩
  · rw [hcounter, State.moveTo, hphase]
  · rw [hcounter, State.moveTo, hslot]
    simp [BitVec.ofNat_add]

/-- R110, R111: any ten phases in a row hold each phase once. -/
theorem sum_delayAt_ten (s : State) (n : Nat) :
    ((List.range' n 10).map s.delayAt).sum = 9 * s.tShift + s.settle := by
  induction n with
  | zero =>
    have hdigit : (List.range' 0 10).map s.delayAt = List.replicate 9 s.tShift ++ [s.settle] := rfl
    rw [hdigit, List.sum_append, List.sum_replicate, List.sum_singleton, smul_eq_mul]
  | succ n ih =>
    have hperiod : s.delayAt (n + 1 + 9) = s.delayAt n := by
      simp only [State.delayAt, Nat.add_assoc, Nat.reduceAdd, Nat.add_mod_right]
    rw [List.range'_succ, List.map_cons, List.sum_cons] at ih
    rw [List.range'_concat, List.map_append, List.sum_append, List.map_singleton, List.sum_singleton, Nat.one_mul,
      hperiod, Nat.add_comm, ih]

theorem sum_delayAt_tens (s : State) (k n : Nat) :
    ((List.range' n (10 * k)).map s.delayAt).sum = k * (9 * s.tShift + s.settle) := by
  induction k with
  | zero => simp
  | succ k ih =>
    rw [Nat.mul_succ, ← List.range'_append_1, List.map_append, List.sum_append, ih, sum_delayAt_ten, Nat.succ_mul k]

/-- R33, R111: the configuration's delays add up to the period. -/
theorem State.ConfigLegal.period {s : State} (h : s.ConfigLegal) : 9 * s.tShift + s.settle = s.pCfg := by
  obtain ⟨hperiod, hsettle⟩ := h
  omega

/-- R111, R112: whole digits' worth of ticks from any legal phase return whole periods. -/
theorem execAll_tickList_digits (k : Nat) {gs : List Glyphs} {s : State} (hlen : gs.length = 10 * k)
    (hlegal : s.phase.toNat < 10) (hconfig : s.ConfigLegal) :
    ∃ (t : State) (ds : List Nat), execAll (tickList gs) s = .next (t.moveTo (s.counter + 10 * k)) ∧
      t.muxReturns = s.muxReturns ++ ds ∧ ds.length = 10 * k ∧ ds.sum = k * s.pCfg := by
  obtain ⟨t, ht, hreturns⟩ := execAll_tickList_moveTo gs s.counter s
  rw [State.moveTo_counter hlegal, hlen] at ht
  exact ⟨t, _, ht, hreturns, by simp [hlen], by rw [hlen, sum_delayAt_tens, hconfig.period]⟩

/-- Settles O19: ten phases in a row are one period, and one turn of PHASE. -/
theorem tenDelaysSumToThePeriod : Obligations.TenDelaysSumToThePeriod := by
  intro s g hlegal hconfig
  obtain ⟨t, ds, ht, hreturns, hlen, hsum⟩ :=
    execAll_tickList_digits 1 (gs := (List.range 10).map g) (by simp) hlegal hconfig
  refine ⟨_, ds, ht, hreturns, hlen, by simpa using hsum, ?_⟩
  have hphase : (s.counter + 10 * 1) % 10 = s.counter % 10 := by omega
  exact (congrArg (BitVec.ofNat 4) hphase).trans (congrArg State.phase (State.moveTo_counter hlegal))

/-- Settles O20: eighty phases in a row are eight periods, and one turn of the counter. -/
theorem fullRefreshTakesEightPeriods : Obligations.FullRefreshTakesEightPeriods := by
  intro s g hlegal hconfig
  obtain ⟨t, ds, ht, hreturns, hlen, hsum⟩ :=
    execAll_tickList_digits 8 (gs := (List.range 80).map g) (by simp) hlegal hconfig
  rw [State.moveTo_add_eighty] at ht
  have hphase : (s.moveTo s.counter).phase = s.phase := congrArg State.phase (State.moveTo_counter hlegal)
  have hslot : (s.moveTo s.counter).slot = s.slot := congrArg State.slot (State.moveTo_counter hlegal)
  exact ⟨_, ds, ht, hreturns, hlen, hsum, hphase, hslot⟩

/-! The events of a digit, and the register they fill. -/

/-- R102: the three events of a Serializing step that drives the bit `v`, and its result. -/
def State.shiftBit (s : State) (v : Level) : State :=
  (((s.drive .sck true).drive .data v).drive .sck false).returnDelay s.tShift

/-- The effect of Serializing steps that drive the given bits in turn, but for PHASE. -/
def State.shiftBits (bits : List Level) (s : State) : State := bits.foldl State.shiftBit s

/-- The state with another PHASE code. -/
def State.withPhase (c : BitVec 4) (s : State) : State := { s with phase := c }

@[simp] theorem State.withPhase_phase (c : BitVec 4) (s : State) : (s.withPhase c).phase = c := rfl
@[simp] theorem State.withPhase_lck (c : BitVec 4) (s : State) : (s.withPhase c).lck = s.lck := rfl
@[simp] theorem State.withPhase_sel (c : BitVec 4) (s : State) : (s.withPhase c).sel = s.sel := rfl
@[simp] theorem State.withPhase_dev (c : BitVec 4) (s : State) : (s.withPhase c).dev = s.dev := rfl

theorem serializeStep_eq_shiftBit (g : Glyphs) (b : BitIdx) (s : State) :
    serializeStep g b s = s.shiftBit (glyphBit g s.slot b) := rfl

theorem exec_muxStep_eq_shiftBit (g : Glyphs) {s : State} (h : s.phase.toNat < 8) :
    exec (.muxStep g) s = .next (s.shiftBit (glyphBit g s.slot ⟨s.phase.setWidth 3⟩)) := by
  rw [exec_muxStep_serializing g (serializing_of_lt h), serializeStep_eq_shiftBit]

@[simp] theorem State.shiftBit_slot (v : Level) (s : State) : (s.shiftBit v).slot = s.slot := rfl
@[simp] theorem State.shiftBit_phase (v : Level) (s : State) : (s.shiftBit v).phase = s.phase := rfl

@[simp] theorem State.shiftBit_out (s : State) (v : Level) : (s.shiftBit v).dev.out = s.dev.out := by
  simp [State.shiftBit]

/-- R102: after a Serializing step the shift-clock is low and DATA holds the bit. -/
@[simp] theorem State.shiftBit_lines (v : Level) (s : State) :
    (s.shiftBit v).lines = { s.lines with data := v, sck := false } := rfl

@[simp] theorem State.shiftBits_nil (s : State) : s.shiftBits [] = s := rfl
@[simp] theorem State.shiftBits_cons (v : Level) (bits : List Level) (s : State) :
    s.shiftBits (v :: bits) = (s.shiftBit v).shiftBits bits := rfl

theorem State.shiftBits_append (bits more : List Level) (s : State) :
    s.shiftBits (bits ++ more) = (s.shiftBits bits).shiftBits more := List.foldl_append

/-- What no bit changes, no run of bits changes. -/
theorem State.shiftBits_keeps {α : Type} (f : State → α) (hf : ∀ s v, f (State.shiftBit s v) = f s)
    (bits : List Level) (s : State) : f (s.shiftBits bits) = f s := by
  induction bits generalizing s with
  | nil => rfl
  | cons v bits ih => exact (ih _).trans (hf s v)

@[simp] theorem State.shiftBits_slot (bits : List Level) (s : State) : (s.shiftBits bits).slot = s.slot :=
  State.shiftBits_keeps State.slot (fun _ _ => rfl) bits s
@[simp] theorem State.shiftBits_lck (bits : List Level) (s : State) : (s.shiftBits bits).lck = s.lck :=
  State.shiftBits_keeps State.lck (fun _ _ => rfl) bits s
@[simp] theorem State.shiftBits_out (bits : List Level) (s : State) : (s.shiftBits bits).dev.out = s.dev.out :=
  State.shiftBits_keeps (·.dev.out) State.shiftBit_out bits s

/-- R103: the line events of a Serializing step that drives `v`. -/
def bitEvents (v : Level) : List LineEvent := [.line .sck true, .line .data v, .line .sck false]

theorem State.shiftBits_trace (bits : List Level) (s : State) :
    (s.shiftBits bits).trace = s.trace ++ bits.flatMap bitEvents := by
  induction bits generalizing s with
  | nil => simp
  | cons v bits ih => simp [ih, State.shiftBit, bitEvents]

/-- R210: the register once the shift-clock is next high: where it is low, a rising SHIFT_EDGE has one more shift of the
held DATA level to come. -/
def State.risenSr (s : State) : Stages :=
  if s.shiftEdge = .rising ∧ s.sck = false then s.dev.sr.shiftIn s.data else s.dev.sr

/-- R210, R115: for either SHIFT_EDGE a Serializing step shifts its bit in, at its own falling edge or at the next
rising one. -/
theorem State.shiftBit_risenSr (v : Level) (s : State) : (s.shiftBit v).risenSr = s.risenSr.shiftIn v := by
  cases hedge : s.shiftEdge <;> cases hsck : s.sck <;>
    simp [State.risenSr, State.shiftBit, Devices.see_sck, edgeOf_true, edgeOf_false, hedge, hsck]

theorem State.shiftBits_risenSr (bits : List Level) (s : State) :
    (s.shiftBits bits).risenSr = bits.foldl Stages.shiftIn s.risenSr := by
  induction bits generalizing s with
  | nil => rfl
  | cons v bits ih => rw [State.shiftBits_cons, ih, State.shiftBit_risenSr, List.foldl_cons]

/-- R117: a repeated Serializing step has a rising and a falling edge, and DATA holds the bit at both. -/
theorem State.shiftBit_shiftBit_sr (v : Level) (s : State) :
    ((s.shiftBit v).shiftBit v).dev.sr = (s.shiftBit v).dev.sr.shiftIn v := by
  cases hedge : s.shiftEdge <;> simp [State.shiftBit, Devices.see_sck, edgeOf, hedge]

@[simp] theorem latchStep_slot (s : State) : (latchStep s).slot = s.slot := rfl
@[simp] theorem latchStep_phase (s : State) : (latchStep s).phase = s.phase := rfl

/-- R102: a Latching step leaves both clocks high and the slot on the select lines. -/
@[simp] theorem latchStep_lines (s : State) :
    (latchStep s).lines = { s.lines with sck := true, lck := true, sel := selCode s.slot } := rfl

@[simp] theorem latchStep_sck (s : State) : (latchStep s).sck = true := rfl
@[simp] theorem latchStep_lck (s : State) : (latchStep s).lck = true := rfl
@[simp] theorem latchStep_sel (s : State) : (latchStep s).sel = s.slot.code := rfl

/-- R115: a Latching step raises the shift-clock again, so no shift is left to come. -/
theorem latchStep_sr (s : State) : (latchStep s).dev.sr = s.risenSr := by
  cases hedge : s.shiftEdge <;> cases hsck : s.sck <;>
    simp [latchStep, State.risenSr, Devices.see_sck, edgeOf_true, hedge, hsck]

/-- R211: the latch-clock copies the register where it rises. -/
theorem latchStep_out (s : State) :
    (latchStep s).dev.out = if s.lck then s.dev.out else (latchStep s).dev.sr := by
  cases hlck : s.lck <;> simp [latchStep, Devices.see_lck, edgeOf_true, hlck]

/-! The ticks of a digit. -/

/-- The state after Serializing steps that drove the given bits, PHASE at the code `a`. -/
def State.afterBits (bits : List Level) (a : Nat) (s : State) : State :=
  (s.shiftBits bits).withPhase (BitVec.ofNat 4 a)

theorem State.afterBits_nil_zero {s : State} (h : s.phase = 0b0000#4) : s.afterBits [] 0 = s :=
  congrArg (fun c => s.withPhase c) h.symm

theorem State.shiftBit_afterBits (v : Level) (bits : List Level) (a : Nat) (s : State) :
    (s.afterBits bits a).shiftBit v = s.afterBits (bits ++ [v]) a := by
  rw [State.afterBits, State.afterBits, State.shiftBits_append]
  rfl

/-- R102: the Serializing step at the code `a` drives bit `a`. -/
theorem exec_muxStep_afterBits (g : Glyphs) (bits : List Level) {a : Nat} (ha : a < 8) (s : State) :
    exec (.muxStep g) (s.afterBits bits a) =
      .next (s.afterBits (bits ++ [(g.get s.slot.code.toFin).getLsbD a]) a) := by
  have hcode : (s.afterBits bits a).phase = 0#1 ++ BitVec.ofNat 3 a := by
    change BitVec.ofNat 4 a = _
    interval_cases a <;> rfl
  have hslot : (s.afterBits bits a).slot = s.slot := State.shiftBits_slot bits s
  have hbit : (BitVec.ofNat 3 a).toNat = a := (BitVec.toNat_ofNat ..).trans (Nat.mod_eq_of_lt ha)
  rw [exec_muxStep_serializing g hcode, serializeStep_eq_shiftBit, glyphBit, hbit, glyphAt, hslot,
    State.shiftBit_afterBits]

/-- R104: within a digit, MUX.ADV moves PHASE only. -/
theorem exec_muxAdv_withPhase (s : State) {a : Nat} (ha : a < 9) :
    exec .muxAdv (s.withPhase (BitVec.ofNat 4 a)) = .next (s.withPhase (BitVec.ofNat 4 (a + 1))) := by
  have hlt : (s.withPhase (BitVec.ofNat 4 a)).phase.toNat < 9 := by
    rw [State.withPhase_phase, BitVec.toNat_ofNat]
    omega
  rw [exec_muxAdv_of_lt hlt, BitVec.ofNat_add]
  rfl

theorem exec_muxAdv_afterBits (bits : List Level) {a : Nat} (ha : a < 8) (s : State) :
    exec .muxAdv (s.afterBits bits a) = .next (s.afterBits bits (a + 1)) :=
  exec_muxAdv_withPhase _ (ha.trans (by decide))

/-- R113: `d n` is the data bit of Serializing(`n`) for a slot, from that step's own operand `g n`. -/
def DigitBits (g : Nat → Glyphs) (slot : Slot) (d : Nat → Level) : Prop :=
  ∀ n, n < 8 → d n = ((g n).get slot.code.toFin).getLsbD n

section
variable {g : Nat → Glyphs} {d : Nat → Level} {s : State} {a : Nat}

/-- R107, R113: ticks that stay in Serializing drive their bits in turn. -/
theorem execAll_ticks_serializing (k : Nat) (bits : List Level) (hd : DigitBits g s.slot d) (hk : a + k ≤ 8) :
    execAll (tickList ((List.range' a k).map g)) (s.afterBits bits a) =
      .next (s.afterBits (bits ++ (List.range' a k).map d) (a + k)) := by
  induction k generalizing a bits with
  | zero =>
    rw [List.range'_zero, List.map_nil, List.map_nil, List.append_nil]
    rfl
  | succ k ih =>
    have ha : a < 8 := by omega
    rw [List.range'_succ, List.map_cons, execAll_tickList_cons, exec_muxStep_afterBits _ _ ha, ← hd a ha,
      andThen_next, exec_muxAdv_afterBits _ ha, andThen_next, ih _ (by omega), List.map_cons, List.append_assoc,
      List.singleton_append, Nat.add_assoc, Nat.add_comm 1]

/-- R107: the first ticks of a digit. -/
theorem execAll_ticks_serializing_of_start {k : Nat} (hd : DigitBits g s.slot d) (h : s.phase = 0b0000#4)
    (hk : k ≤ 8) :
    execAll (tickList ((List.range k).map g)) s = .next (s.afterBits ((List.range k).map d) k) := by
  have hrun := execAll_ticks_serializing (a := 0) k [] hd ((Nat.zero_add k).trans_le hk)
  rwa [State.afterBits_nil_zero h, ← List.range_eq_range', Nat.zero_add] at hrun

/-- R107: the ticks from Serializing(`a`) through Latching drive the bits from `a` on and latch. -/
theorem execAll_ticks_latching (bits : List Level) (hd : DigitBits g s.slot d) (ha : a ≤ 8) :
    execAll (tickList ((List.range' a (9 - a)).map g)) (s.afterBits bits a) =
      .next ((latchStep (s.shiftBits (bits ++ (List.range' a (8 - a)).map d))).withPhase 0b1001#4) := by
  have hlen : 9 - a = 8 - a + 1 := by omega
  have hlast : a + (8 - a) = 8 := by omega
  rw [hlen, List.range'_concat, List.map_append, tickList_append, execAll_append,
    execAll_ticks_serializing _ bits hd hlast.le, andThen_next, Nat.one_mul, hlast, List.map_singleton,
    execAll_tickList_cons, exec_muxStep_latching _ rfl, andThen_next]
  exact congrArg (andThen · (execAll [])) (exec_muxAdv_withPhase (latchStep _) (a := 8) (by decide))

/-- R107: the nine ticks from Serializing(0) latch the digit. -/
theorem execAll_ticks_latching_of_start (hd : DigitBits g s.slot d) (h : s.phase = 0b0000#4) :
    execAll (tickList ((List.range 9).map g)) s =
      .next ((latchStep (s.shiftBits ((List.range 8).map d))).withPhase 0b1001#4) := by
  have hrun := execAll_ticks_latching (a := 0) [] hd (by decide)
  rwa [State.afterBits_nil_zero h] at hrun

/-- R117: a digit's ticks with the step of Serializing(`a`) repeated drive bit `a` twice. -/
theorem execAll_ticks_repeating (hd : DigitBits g s.slot d) (h : s.phase = 0b0000#4) (ha : a < 8) :
    execAll (tickList ((List.range a).map g) ++ [.muxStep (g a)] ++ tickList ((List.range' a (9 - a)).map g)) s =
      .next ((latchStep (s.shiftBits ((List.range (a + 1) ++ List.range' a (8 - a)).map d))).withPhase 0b1001#4) := by
  rw [execAll_append, execAll_append, execAll_ticks_serializing_of_start hd h ha.le, andThen_next, execAll_cons,
    exec_muxStep_afterBits _ _ ha, ← hd a ha, andThen_next, execAll_nil, andThen_next,
    execAll_ticks_latching _ hd ha.le]
  simp [List.range_succ]

/-- R118: a digit's ticks with Serializing(`a`) skipped leave bit `a` out. -/
theorem execAll_ticks_skipping (hd : DigitBits g s.slot d) (h : s.phase = 0b0000#4) (ha : a < 8) :
    execAll (tickList ((List.range a).map g) ++ [.muxAdv] ++ tickList ((List.range' (a + 1) (8 - a)).map g)) s =
      .next ((latchStep (s.shiftBits ((List.range a ++ List.range' (a + 1) (7 - a)).map d))).withPhase 0b1001#4) := by
  have hticks : 8 - a = 9 - (a + 1) := by omega
  have hbits : 7 - a = 8 - (a + 1) := by omega
  rw [execAll_append, execAll_append, execAll_ticks_serializing_of_start hd h ha.le, andThen_next, execAll_cons,
    exec_muxAdv_afterBits _ ha, andThen_next, execAll_nil, andThen_next, hticks, execAll_ticks_latching _ hd ha, hbits,
    List.map_append]

/-- R107: the ten ticks of a digit, from Serializing(0) to the next digit's. -/
theorem execAll_ticks_digit (hd : DigitBits g s.slot d) (h : s.phase = 0b0000#4) :
    execAll (tickList ((List.range 10).map g)) s =
      .next { settleStep (latchStep (s.shiftBits ((List.range 8).map d))) with
        phase := 0b0000#4, slot := succSlot (s.shiftBits ((List.range 8).map d)).slot } := by
  rw [List.range_succ, List.map_append, tickList_append, execAll_append, execAll_ticks_latching_of_start hd h,
    andThen_next, List.map_singleton, execAll_tickList_cons, exec_muxStep_settled _ rfl, andThen_next,
    exec_muxAdv_settled rfl]
  rfl

end

/-- R103, R113: the line events of a digit that drives the given bits at the given slot. -/
def digitEvents (bits : List Level) (d : Slot) : List LineEvent :=
  bits.flatMap bitEvents ++ [.line .sck true, .sel d.code, .line .lck true, .line .lck false]

theorem digitEvents_cons (v : Level) (bits : List Level) (d : Slot) :
    digitEvents (v :: bits) d = bitEvents v ++ digitEvents bits d := rfl

/-- R109, R113, R114: a digit's ten ticks append its events. -/
theorem execAll_ticks_digit_trace (g : Nat → Glyphs) {s : State} (h : s.phase = 0b0000#4) :
    ∃ t : State, execAll (tickList ((List.range 10).map g)) s = .next t ∧
      t.trace = s.trace ++
        digitEvents ((List.range 8).map fun b => ((g b).get s.slot.code.toFin).getLsbD b) s.slot ∧
      t.phase = 0b0000#4 ∧ t.slot = succSlot s.slot ∧ t.sck = true ∧ t.lck = false ∧ t.sel = s.slot.code := by
  refine ⟨_, execAll_ticks_digit (fun _ _ => rfl) h, ?_, rfl, ?_, rfl, rfl, ?_⟩
  · simp [settleStep, latchStep, State.shiftBits_trace, digitEvents, selCode]
  · rw [State.shiftBits_slot]
  · simp [settleStep, selCode]

/-- Settles O17: each Serializing tick appends its bit's three events, and the last two ticks the digit's last four. -/
theorem oneDigitTrace : Obligations.OneDigitTrace := by
  intro s g h
  obtain ⟨t, ht, htrace, hphase, hslot, -⟩ := execAll_ticks_digit_trace g h
  refine ⟨t, ht, ?_, hphase, congrArg Slot.code hslot⟩
  rw [htrace, digitEvents, List.flatMap_map, ← List.append_assoc]
  rfl

/-- R114: a bit takes the shift-clock up, where it is low, and down. -/
theorem edgesOn_sck_bitEvents (v : Level) (ln : Lines) (more : List LineEvent) :
    edgesOn .sck ln (bitEvents v ++ more) =
      (edgeOf ln.sck true).toList ++ .falling :: edgesOn .sck { ln with data := v, sck := false } more := rfl

/-- R114: a digit's bits take the shift-clock down once each, and the rise of Latching makes up for a shift-clock that
was high at the first of them. -/
theorem edgesOn_sck_digitEvents (bits : List Level) (d : Slot) (ln : Lines) :
    (edgesOn .sck ln (digitEvents bits d)).count .falling = bits.length ∧
    (edgesOn .sck ln (digitEvents bits d)).count .rising = bits.length + if ln.sck then 0 else 1 := by
  induction bits generalizing ln with
  | nil => cases hsck : ln.sck <;> simp [digitEvents, edgesOn, edgeOf, Lines.level, hsck]
  | cons v bits ih =>
    obtain ⟨hfalling, hrising⟩ := ih { ln with data := v, sck := false }
    rw [digitEvents_cons, edgesOn_sck_bitEvents]
    cases hsck : ln.sck <;> simp [edgeOf, hfalling, hrising]

/-- R109: a digit's one latch pulse. -/
theorem edgesOn_lck_digitEvents (bits : List Level) (d : Slot) {ln : Lines} (h : ln.lck = false) :
    edgesOn .lck ln (digitEvents bits d) = [.rising, .falling] := by
  induction bits generalizing ln with
  | nil => simp [digitEvents, edgesOn, edgeOf, Lines.level, h]
  | cons v bits ih => exact ih (ln := { ln with data := v, sck := false }) h

/-- Settles O18: the edges are counted bit by bit over the digit's events. -/
theorem oneDigitEdges : Obligations.OneDigitEdges := by
  intro s g h hlck
  obtain ⟨t, ht, htrace, -, -, hend⟩ := execAll_ticks_digit_trace g h
  obtain ⟨hfalling, hrising⟩ := edgesOn_sck_digitEvents
    ((List.range 8).map fun b => ((g b).get s.slot.code.toFin).getLsbD b) s.slot s.lines
  refine ⟨t, _, ht, htrace, ?_, ?_, edgesOn_lck_digitEvents _ _ hlck, hend⟩
  · rw [hfalling]
    rfl
  · rw [hrising, State.lines_sck]
    split <;> rfl

/-! The byte that a digit latches, and the steps repeated or skipped. -/

/-- R210: seven shifts leave of the stages before only stage 0, in stage 7. -/
theorem foldl_shiftIn_of_seven {bits : List Level} (h : 7 ≤ bits.length) {st st' : Stages} (hs : st.s0 = st'.s0) :
    bits.foldl Stages.shiftIn st = bits.foldl Stages.shiftIn st' := by
  match bits, h with
  | v0 :: v1 :: v2 :: v3 :: v4 :: v5 :: v6 :: more, _ => simp [Stages.shiftIn, hs]

/-- R115: eight shifts leave nothing of the stages before. -/
theorem foldl_shiftIn_of_eight {bits : List Level} (h : 8 ≤ bits.length) (st st' : Stages) :
    bits.foldl Stages.shiftIn st = bits.foldl Stages.shiftIn st' := by
  match bits, h with
  | v :: more, h => exact foldl_shiftIn_of_seven (Nat.le_of_succ_le_succ h) rfl

/-- R115: with the latch-clock low, Latching shows what the bits made of the register, for either SHIFT_EDGE. -/
theorem latchStep_shiftBits_out (bits : List Level) {s : State} (h : s.lck = false) :
    (latchStep (s.shiftBits bits)).dev.out = bits.foldl Stages.shiftIn s.risenSr := by
  simp [latchStep_out, latchStep_sr, State.shiftBits_risenSr, h]

/-- R115: eight shifts take the first bit to stage 7. -/
theorem foldl_shiftIn_byte (v : Byte) (st : Stages) :
    ((List.range 8).map v.getLsbD).foldl Stages.shiftIn st = Stages.ofByte (reverse8 v) := by
  simp (disch := decide) only [Stages.ofByte, reverse8_getLsbD]
  rfl

/-- Settles O21: the eight bits fill the register, the first of them in stage 7. -/
theorem latchedByteIsTheDigitReversed : Obligations.LatchedByteIsTheDigitReversed := by
  intro s g v h hlck hv
  refine ⟨_, execAll_ticks_latching_of_start (d := v.getLsbD) hv h, ?_, ?_, ?_, rfl⟩
  · rw [State.withPhase_dev, latchStep_shiftBits_out _ hlck, foldl_shiftIn_byte]
  · simp [latchStep_out, hlck]
  · simp

/-- Settles O23: the repeat is one more bit, so nine bits are shifted and the first is pushed out. -/
theorem repeatedSerializingShiftsNineBits : Obligations.RepeatedSerializingShiftsNineBits := by
  intro s g b d h hlck hb hd
  have hout := latchStep_shiftBits_out ((List.range (b + 1) ++ List.range' b (8 - b)).map d) hlck
  rw [foldl_shiftIn_of_eight (by simp; omega) _ Stages.unknown] at hout
  refine ⟨_, execAll_ticks_repeating hd h hb, hout, ?_⟩
  rintro rfl
  exact hout

/-- Settles O24: the skip leaves out one bit, so seven are shifted. -/
theorem skippedSerializingLeavesAStaleBit : Obligations.SkippedSerializingLeavesAStaleBit := by
  intro s g b d h hlck hb hd
  have hout := latchStep_shiftBits_out ((List.range b ++ List.range' (b + 1) (7 - b)).map d) hlck
  refine ⟨_, execAll_ticks_skipping hd h hb, hout.trans (foldl_shiftIn_of_seven (by simp; omega) ?_)⟩
  rw [State.risenSr]
  split <;> rfl

/-- Settles O25: MUX.ADV drives nothing, and a latch-clock that is high does not rise. -/
theorem skippedLatchOrSettleLatchesNothing : Obligations.SkippedLatchOrSettleLatchesNothing := by
  refine ⟨fun s h => ?_, fun s g h hlck => ?_⟩
  · rw [exec_muxAdv_of_lt (by rw [h]; decide), h]
    exact ⟨_, rfl, rfl, rfl, rfl, rfl⟩
  · rw [execAll_cons, exec_muxAdv_settled h, andThen_next]
    refine ⟨_, execAll_ticks_latching_of_start (fun _ _ => rfl) rfl, ?_, rfl, rfl⟩
    simp [latchStep_out, hlck]

/-- Settles O22: the repeat starts with the lines that the first step left, so what it writes again is no edge but for
the shift-clock's in Serializing. -/
theorem repeatedStepActsTwice : Obligations.RepeatedStepActsTwice := by
  intro s g h
  obtain hlt | hlatching | hsettled := phase_cases h
  · have hstep := exec_muxStep_eq_shiftBit g hlt
    generalize hv : glyphBit g s.slot ⟨s.phase.setWidth 3⟩ = v at hstep ⊢
    have hrepeat := exec_muxStep_eq_shiftBit (s := s.shiftBit v) g hlt
    rw [State.shiftBit_slot, State.shiftBit_phase, hv] at hrepeat
    refine ⟨_, _, hstep, hrepeat, ?_⟩
    simp [State.shiftBit_shiftBit_sr, hlt]
  · refine ⟨_, _, exec_muxStep_latching g hlatching, exec_muxStep_latching g hlatching, ?_⟩
    simp [latchStep_out (latchStep s), latchStep_sr (latchStep s), State.risenSr, hlatching]
  · refine ⟨_, _, exec_muxStep_settled g hsettled, exec_muxStep_settled g hsettled, ?_⟩
    simp [settleStep, hsettled]

end Sys2Proof.Machine
end

