-- ==== Sys2Proof/Proofs/KeyScanner.lean ====
section
/-! The laws of the Key Scanner (41_key_scanner.md, R140 to R149) and its debounce pause (R206, R256, R262). -/

namespace Sys2Proof.Machine

/-! One scan as a function of what is latched and of the lines. -/

theorem firstAsserted_cons (keyN : BitVec 4) (k : Key) (ks : List Key) :
    firstAsserted keyN (k :: ks) = if sample keyN k = false then some k else firstAsserted keyN ks := by
  rw [firstAsserted, List.find?_cons]
  cases sample keyN k <;> rfl

/-- R140: the priority order as a chain of tests on the lines. -/
theorem firstPressed_eq (keyN : BitVec 4) :
    firstPressed keyN =
      if keyN[0] = false then some .s2 else if keyN[1] = false then some .s3
      else if keyN[2] = false then some .s4 else if keyN[3] = false then some .s5 else none := by
  simp only [firstPressed, firstAsserted_cons]
  rfl

/-- What a scan reports, by what is latched before it (R141). -/
def scanEvent (l : Option Key) (keyN : BitVec 4) : Option Key :=
  match l with
  | none => firstPressed keyN
  | some _ => none

/-- What is latched after a scan, by what is latched before it (R141). -/
def latchAfter (l : Option Key) (keyN : BitVec 4) : Option Key :=
  match l with
  | none => firstPressed keyN
  | some k => if sample keyN k then none else some k

/-- The wait a scan answers with its event, for a given T_DEBOUNCE (R148). -/
def scanWait (debounce : Nat) (e : Option Key) : Nat := if e.isSome then debounce else 0

@[simp] theorem scanEvent_none (keyN : BitVec 4) : scanEvent none keyN = firstPressed keyN := rfl
@[simp] theorem scanEvent_some (k : Key) (keyN : BitVec 4) : scanEvent (some k) keyN = none := rfl
@[simp] theorem latchAfter_none (keyN : BitVec 4) : latchAfter none keyN = firstPressed keyN := rfl
theorem latchAfter_some (k : Key) (keyN : BitVec 4) :
    latchAfter (some k) keyN = if sample keyN k then none else some k := rfl
@[simp] theorem scanWait_none (debounce : Nat) : scanWait debounce none = 0 := rfl
@[simp] theorem scanWait_some (debounce : Nat) (k : Key) : scanWait debounce (some k) = debounce := rfl

/-- R142: what a scan leaves latched was latched before it, unless nothing was. -/
theorem eq_none_or_eq_of_latchAfter {l : Option Key} {keyN : BitVec 4} {k : Key}
    (h : latchAfter l keyN = some k) : l = none ∨ l = some k := by
  cases l with
  | none => exact .inl rfl
  | some j =>
    rw [latchAfter_some] at h
    split at h
    · cases h
    · exact .inr h

/-- R141: what is reported is latched. -/
theorem latchAfter_of_scanEvent {l : Option Key} {keyN : BitVec 4} {k : Key}
    (h : scanEvent l keyN = some k) : latchAfter l keyN = some k := by
  cases l with
  | none => exact h
  | some j => cases h

/-- The state after a scan that finds `l` latched. -/
def State.scanned (l : Option Key) (keyN : BitVec 4) (s : State) : State :=
  (s.writeLatched (latchAfter l keyN)).returnKey (scanEvent l keyN) (scanWait s.tDebounce (scanEvent l keyN))

@[simp] theorem State.scanned_latched (l : Option Key) (keyN : BitVec 4) (s : State) :
    (s.scanned l keyN).latched = keyCode (latchAfter l keyN) := rfl
@[simp] theorem State.scanned_keyEvt (l : Option Key) (keyN : BitVec 4) (s : State) :
    (s.scanned l keyN).keyEvt = keyCode (scanEvent l keyN) := rfl
@[simp] theorem State.scanned_keyReturns (l : Option Key) (keyN : BitVec 4) (s : State) :
    (s.scanned l keyN).keyReturns =
      s.keyReturns ++ [(scanEvent l keyN, scanWait s.tDebounce (scanEvent l keyN))] := rfl
@[simp] theorem State.scanned_tDebounce (l : Option Key) (keyN : BitVec 4) (s : State) :
    (s.scanned l keyN).tDebounce = s.tDebounce := rfl

theorem State.writeLatched_of_latched {s : State} {l : Option Key} (h : s.latched = keyCode l) :
    s.writeLatched l = s := by
  rw [State.writeLatched, ← h]

/-- R141: what KEY.SCAN answers in a state whose LATCHED stands for `l`. -/
theorem exec_keyScan_eq {s : State} {l : Option Key} (h : s.latched = keyCode l) (keyN : BitVec 4) :
    exec (.keyScan keyN) s = .next (s.scanned l keyN) := by
  cases l with
  | none =>
    rw [exec_keyScan_unlatched keyN h, scanUnlatched, State.scanned, scanEvent_none, latchAfter_none]
    cases firstPressed keyN with
    | none => rw [State.writeLatched_of_latched h]; rfl
    | some k => rfl
  | some k =>
    rw [exec_keyScan_latched keyN h, scanLatched, State.scanned, latchAfter_some]
    cases sample keyN k with
    | true => rfl
    | false => simp [State.writeLatched_of_latched h]

/-- R141: all that KEY.SCAN answers when it does not fault. -/
theorem exec_keyScan_inv {s t : State} {keyN : BitVec 4} (h : exec (.keyScan keyN) s = .next t) :
    ∃ l, s.latched = keyCode l ∧ t = s.scanned l keyN := by
  cases hl : keyOf s.latched with
  | none => simp [exec, execKeyScan, hl] at h
  | some l =>
    have hlatched : s.latched = keyCode l := (keyCode_of_keyOf hl).symm
    exact ⟨l, hlatched, Host.Outcome.next.inj (h.symm.trans (exec_keyScan_eq hlatched keyN))⟩

/-- Settles O29: each clause is read off the chain of tests. -/
theorem firstPressedFollowsThePriority : Obligations.FirstPressedFollowsThePriority := by
  intro keyN
  have hreleased : keyN = 0b1111#4 ↔ keyN[0] = true ∧ keyN[1] = true ∧ keyN[2] = true ∧ keyN[3] = true := by
    revert keyN; decide
  rw [hreleased, firstPressed_eq]
  split_ifs <;> simp_all

/-- R76: the valid codes are those of the keys. -/
theorem valid_eq_keyCode (c : BitVec 2) : 1#1 ++ c = keyCode (some (keyOfOrdinal c)) := by
  revert c; decide

/-- R72: a key's line is the one of its ordinal. -/
theorem sample_keyOfOrdinal (keyN : BitVec 4) (c : BitVec 2) :
    sample keyN (keyOfOrdinal c) = keyN.getLsbD c.toNat := by
  have hordinal : ∀ c : BitVec 2, keyOrdinal (keyOfOrdinal c) = c := by decide
  rw [sample, hordinal]

/-- Settles O30: the state after the scan, by the latched key's line, or by the first asserted key. -/
theorem scanClearsOrConfirms : Obligations.ScanClearsOrConfirms := by
  refine fun s keyN => ⟨fun c hlatched => ?_, fun hlatched => ?_⟩
  · have hkey := hlatched.trans (valid_eq_keyCode c)
    rw [exec_keyScan_eq hkey, State.scanned, latchAfter_some, sample_keyOfOrdinal, hkey]
    split <;> rfl
  · rw [exec_keyScan_eq (l := none) hlatched, State.scanned, latchAfter_none, scanEvent_none, firstPressed_eq]
    split_ifs
    · rfl
    · rfl
    · rfl
    · rfl
    · rw [State.writeLatched_of_latched hlatched]; rfl

/-- Settles O31: one code stands for each key, so the latch after the scan is the one that `latchAfter` gives. -/
theorem latchIsSetOnlyFromNone : Obligations.LatchIsSetOnlyFromNone := by
  intro s t keyN k h ht
  obtain ⟨l, hlatched, rfl⟩ := exec_keyScan_inv h
  rw [hlatched]
  exact (eq_none_or_eq_of_latchAfter (keyCode_injective ht)).imp (congrArg keyCode) (congrArg keyCode)

/-- Settles O36: the event is the one the scan returned. -/
theorem waitOnlyOnTheDetectingScan : Obligations.WaitOnlyOnTheDetectingScan := by
  intro s t keyN h
  obtain ⟨l, -, rfl⟩ := exec_keyScan_inv h
  exact ⟨scanEvent l keyN, rfl, rfl, rfl⟩

/-- Settles O37: both states' LATCHED stands for one thing, and the scan's event and latch are functions of it. -/
theorem scanDependsOnLatchAndLinesOnly : Obligations.ScanDependsOnLatchAndLinesOnly := by
  intro s s' t keyN hagree h
  obtain ⟨l, hlatched, rfl⟩ := exec_keyScan_inv h
  exact ⟨s'.scanned l keyN, exec_keyScan_eq (hagree.symm.trans hlatched) keyN, rfl, rfl⟩

/-! Runs of scans. -/

/-- What the scans of a run return, each event with its wait, by what is latched before the first (R141, R148). -/
def scanReturns (debounce : Nat) (l : Option Key) (ns : List (BitVec 4)) : List (Option Key × Nat) :=
  match ns with
  | [] => []
  | n :: rest => (scanEvent l n, scanWait debounce (scanEvent l n)) :: scanReturns debounce (latchAfter l n) rest

/-- What is latched after a run of scans. -/
def latchAfterAll (l : Option Key) (ns : List (BitVec 4)) : Option Key := ns.foldl latchAfter l

@[simp] theorem scanReturns_nil (debounce : Nat) (l : Option Key) : scanReturns debounce l [] = [] := rfl
@[simp] theorem scanReturns_cons (debounce : Nat) (l : Option Key) (n : BitVec 4) (rest : List (BitVec 4)) :
    scanReturns debounce l (n :: rest) =
      (scanEvent l n, scanWait debounce (scanEvent l n)) :: scanReturns debounce (latchAfter l n) rest := rfl
@[simp] theorem latchAfterAll_nil (l : Option Key) : latchAfterAll l [] = l := rfl
@[simp] theorem latchAfterAll_cons (l : Option Key) (n : BitVec 4) (rest : List (BitVec 4)) :
    latchAfterAll l (n :: rest) = latchAfterAll (latchAfter l n) rest := rfl

/-- R141: a run of scans does not fault, and its returns and its last latch are functions of the latch it starts with,
the lines and T_DEBOUNCE. -/
theorem execAll_keyScan (ns : List (BitVec 4)) {s : State} {l : Option Key} (h : s.latched = keyCode l) :
    ∃ t : State, execAll (ns.map .keyScan) s = .next t ∧
      t.keyReturns = s.keyReturns ++ scanReturns s.tDebounce l ns ∧ t.latched = keyCode (latchAfterAll l ns) := by
  induction ns generalizing s l with
  | nil => exact ⟨s, rfl, by simp, h⟩
  | cons n rest ih =>
    obtain ⟨t, hrun, hreturns, hlatched⟩ := ih (State.scanned_latched l n s)
    exact ⟨t, by simp [exec_keyScan_eq h, hrun], by simp [hreturns], hlatched⟩

/-- R143: while a latched key's line stays low, it stays latched and nothing is reported. -/
theorem scanReturns_of_held (debounce : Nat) {k : Key} {ns : List (BitVec 4)} (h : ∀ n ∈ ns, sample n k = false) :
    scanReturns debounce (some k) ns = List.replicate ns.length (none, 0) ∧ latchAfterAll (some k) ns = some k := by
  induction ns with
  | nil => exact ⟨rfl, rfl⟩
  | cons n rest ih =>
    obtain ⟨hlow, hrest⟩ := List.forall_mem_cons.1 h
    have hkept : latchAfter (some k) n = some k := by simp [latchAfter_some, hlow]
    simp [hkept, ih hrest, List.replicate_succ]

/-- R141: with nothing latched and every line high, a run of scans latches and reports nothing. -/
theorem scanReturns_of_released (debounce n : Nat) :
    scanReturns debounce none (List.replicate n 0b1111#4) = List.replicate n (none, 0) ∧
      latchAfterAll none (List.replicate n 0b1111#4) = none := by
  induction n with
  | zero => exact ⟨rfl, rfl⟩
  | succ n ih => simpa [List.replicate_succ] using ih

theorem eventsApart_cons_none (w : Nat) (rs : List (Option Key × Nat)) :
    eventsApart ((none, w) :: rs) = eventsApart rs := by
  cases rs <;> simp [eventsApart]

/-- R144: a scan that reports latches what it reports, so the scan after it reports nothing. -/
theorem eventsApart_scanReturns (debounce : Nat) (l : Option Key) (ns : List (BitVec 4)) :
    eventsApart (scanReturns debounce l ns) = true := by
  induction ns generalizing l with
  | nil => rfl
  | cons n rest ih =>
    have hrest := ih (latchAfter l n)
    rw [scanReturns_cons]
    cases he : scanEvent l n with
    | none => rwa [eventsApart_cons_none]
    | some k =>
      rw [latchAfter_of_scanEvent he] at hrest ⊢
      cases rest with
      | nil => rfl
      | cons m rest => simpa [eventsApart] using hrest

theorem length_scanReturns (debounce : Nat) (l : Option Key) (ns : List (BitVec 4)) :
    (scanReturns debounce l ns).length = ns.length := by
  induction ns generalizing l with
  | nil => rfl
  | cons n rest ih => simp [ih]

/-- Settles O32: the first scan latches the key, and the run of the others keeps it. -/
theorem oneEventPerPress : Obligations.OneEventPerPress := by
  intro s first k later hnone hfirst hlow
  obtain ⟨t, hrun, hreturns, hlatched⟩ := execAll_keyScan (first :: later) hnone
  obtain ⟨hquiet, hkept⟩ := scanReturns_of_held s.tDebounce hlow
  exact ⟨t, hrun, by simp [hreturns, hfirst, hquiet], by simp [hlatched, hfirst, hkept]⟩

/-- Settles O33: the clearing scan is one of the two with a key latched, and a run's returns keep events apart. -/
theorem releaseIsNotReported : Obligations.ReleaseIsNotReported := by
  refine ⟨fun s k keyN hlatched hhigh => ?_, fun s ks hlegal => ?_⟩
  · exact ⟨_, exec_keyScan_eq hlatched keyN, by simp [latchAfter_some, hhigh], by simp, by simp⟩
  · obtain ⟨-, hsome, -⟩ := hlegal
    obtain ⟨l, hl⟩ := Option.isSome_iff_exists.1 hsome
    obtain ⟨t, hrun, hreturns, -⟩ := execAll_keyScan ks (keyCode_of_keyOf hl).symm
    exact ⟨t, _, hrun, hreturns, length_scanReturns .., eventsApart_scanReturns ..⟩

/-- R141, R145: a scan that finds the latched key released, and a scan after it that finds a key asserted. -/
theorem execAll_release_press {s : State} {k j : Key} {high low : BitVec 4} (hlatched : s.latched = keyCode (some k))
    (hhigh : sample high k = true) (hpressed : firstPressed low = some j) :
    ∃ t : State, execAll [.keyScan high, .keyScan low] s = .next t ∧
      t.keyReturns = s.keyReturns ++ [(none, 0), (some j, s.tDebounce)] ∧ t.latched = keyCode (some j) := by
  obtain ⟨t, hrun, hreturns, hlatch⟩ := execAll_keyScan [high, low] hlatched
  exact ⟨t, hrun, by simp [hreturns, latchAfter_some, hhigh, hpressed],
    by simp [hlatch, latchAfter_some, hhigh, hpressed]⟩

/-- Settles O34: the state after a scan names the latched key's line only. -/
theorem otherKeysAreInvisibleWhileLatched : Obligations.OtherKeysAreInvisibleWhileLatched := by
  refine ⟨fun s k n n' hlatched hsame => ?_, fun s k j n n' hlatched hhigh hpressed => ?_⟩
  · rw [exec_keyScan_latched n hlatched, exec_keyScan_latched n' hlatched, scanLatched, scanLatched, hsame]
  · obtain ⟨t, hrun, hreturns, hlatch⟩ := execAll_release_press hlatched hhigh hpressed
    exact ⟨t, hrun, hlatch, hreturns⟩

/-- Settles O35: after the press the first scan of high lines clears the latch and the others find nothing; the bounce is
a release and a press. -/
theorem oneSampleConfirmsAPress : Obligations.OneSampleConfirmsAPress := by
  refine ⟨fun s first k n hnone hfirst => ?_, fun s k high low => execAll_release_press⟩
  obtain ⟨t, hrun, hreturns, hlatched⟩ := execAll_keyScan (first :: List.replicate (n + 1) 0b1111#4) hnone
  obtain ⟨hquiet, hclear⟩ := scanReturns_of_released s.tDebounce n
  exact ⟨t, hrun, by simp [hreturns, hfirst, List.replicate_succ, latchAfter_some, hquiet],
    by simp [hlatched, hfirst, List.replicate_succ, latchAfter_some, hclear]⟩

/-! The debounce pause. -/

/-- R71: a command decoded from a transaction has the transaction's word. -/
@[simp] theorem commandWord_decode (tx : Transaction) : commandWord (decode tx) = tx.cmd := by
  obtain ⟨w, g, keyN⟩ := tx
  obtain rfl | rfl | rfl | rfl := command_word_cases w <;> rfl

@[simp] theorem noteBefore_pause (i : Instr) (s : State) : (noteBefore i s).pause = s.host.pause := by
  cases i <;> simp [noteBefore]

/-- What the record says of the pause after a command, by the pause as the command is issued (log entries 10, 11, 18). -/
theorem issue_pause {i : Instr} {s t : State} (h : issue i s = .next t) :
    (commandWord i = 0b11#2 → t.host.pause = t.keyWait ∧ (t.host.scanning = true ↔ t.keyWait ≠ 0)) ∧
    (commandWord i ≠ 0b11#2 → t.host.scanning = s.host.scanning ∧
      t.host.pause = if commandWord i = 0b01#2 then 0 else s.host.pause) := by
  rw [issue_eq] at h
  cases hexec : exec i s with
  | next v =>
    rw [hexec] at h
    cases h
    cases i <;> simp [noteAfter, commandWord]
  | fault f => rw [hexec] at h; cases h
  | refused r => rw [hexec] at h; cases h

/-- R206: a command that `duringPause` does not refuse is issued, with the time named taken off. -/
theorem issue_of_issueDuringPause {n : Nat} {i : Instr} {s t : State} (h : issueDuringPause n i s = .next t) :
    issue i (s.withHost (s.host.elapse n)) = .next t := by
  unfold issueDuringPause at h
  split at h
  · cases h
  · exact h

/-- Settles O57: by the action; an issued command starts with no pause, one issued in the pause with what is left of it. -/
theorem debouncePauseBeginsAndEnds : Obligations.DebouncePauseBeginsAndEnds := by
  intro s t a rest hpending hstep
  rw [step_of_pending hpending] at hstep
  cases a with
  | reset c => simp
  | issue tx =>
    have hpause := issue_pause hstep
    simpa using hpause
  | duringPause n tx =>
    have hpause := issue_pause (issue_of_issueDuringPause hstep)
    simpa using hpause
  | wait n => cases hstep; simp
  | waitMuxDelay => cases hstep; simp

end Sys2Proof.Machine
end

section
/-! The law of the idle command (42_idle.md, R160). -/

namespace Sys2Proof.Machine

@[simp] theorem exec_nop (s : State) : exec .nop s = .next s := rfl

/-- R71: the word 00 is the idle command's, whatever the operand ports hold. -/
theorem decode_eq_nop {t : Transaction} (h : t.cmd = 0b00#2) : decode t = .nop := by
  obtain ⟨w, g, keyN⟩ := t
  cases h
  rfl

/-- R160: a NOP issued once the previous command has completed leaves the state in which the host acts: neither note of
the record says anything about it. -/
theorem step_nop {s : State} {t : Transaction} {rest : List HostAction} (hpending : s.host.pending = .issue t :: rest)
    (hword : t.cmd = 0b00#2) : step s = .next (s.acting rest) := by
  rw [step_of_pending hpending, runAction, decode_eq_nop hword]
  rfl

/-- R206: with no pause in progress there is none to finish, and the host acts with its record as it stands. -/
theorem State.acting_of_no_pause {s : State} (hpause : s.host.pause = 0) (hscanning : s.host.scanning = false)
    (rest : List HostAction) : s.acting rest = s.withHost { s.host with pending := rest } := by
  simp [State.acting, HostSide.finishPause, HostSide.elapse, hpause, hscanning]

/-- Settles O8: with no pause to finish, the state in which the host acts is the one before, less the action taken. -/
theorem nopChangesNothing : Obligations.NopChangesNothing := by
  refine ⟨exec_nop, fun s t rest hpending hword hpause hscanning => ?_⟩
  rw [step_nop hpending hword, State.acting_of_no_pause hpause hscanning]

end Sys2Proof.Machine
end

section
/-! Outcomes, marks and the devices on the lines (60_exceptions.md, R200 to R214): no command raises an exception, a
broken duty is marked and never reaches the block, and what the platform shows of a latched digit. -/

namespace Sys2Proof.Machine

/-! Broken duties and the block. -/

/-- R202, R257: two outcomes alike but for what the host owes, has waited or has broken: stops by the same name, or next
states that differ in the host's record only, with the same actions pending and both or neither in a pause. -/
inductive AlikeButDuties : Host.Outcome State Fault Refusal → Host.Outcome State Fault Refusal → Prop
  | next (t : State) {h h' : HostSide} (hpending : h'.pending = h.pending) (hscanning : h'.scanning = h.scanning) :
      AlikeButDuties (.next (t.withHost h)) (.next (t.withHost h'))
  | fault (f : Fault) : AlikeButDuties (.fault f) (.fault f)
  | refused (r : Refusal) : AlikeButDuties (.refused r) (.refused r)

theorem AlikeButDuties.refl (o : Host.Outcome State Fault Refusal) : AlikeButDuties o o := by
  cases o with
  | next t => exact .next t (h := t.host) (h' := t.host) rfl rfl
  | fault f => exact .fault f
  | refused r => exact .refused r

theorem noteAfter_scanning_congr (i : Instr) (v : State) {h h' : HostSide} (hscanning : h'.scanning = h.scanning) :
    (noteAfter i (v.withHost h')).scanning = (noteAfter i (v.withHost h)).scanning := by
  cases i <;> simp [noteAfter, hscanning]

section
variable {s : State} {h : HostSide} (hpending : h.pending = s.host.pending) (hscanning : h.scanning = s.host.scanning)
include hpending

/-- R250: of the host's side a reset reads the pending actions only. -/
theorem State.resetTo_withHost (c : Construction) : (s.withHost h).resetTo c = s.resetTo c := by
  simp [State.resetTo, hpending]

include hscanning

/-- R202: the block's part of a command is the same whatever the record, and the two notes take from the record's
pending actions and its pause only those. -/
theorem issue_alikeButDuties (i : Instr) : AlikeButDuties (issue i s) (issue i (s.withHost h)) := by
  rw [issue_eq, issue_eq, exec_withHost]
  cases exec i s with
  | next v => exact .next v (by simpa using hpending) (noteAfter_scanning_congr i v (by simpa using hscanning))
  | fault f => exact .fault f
  | refused r => exact .refused r

theorem issueDuringPause_alikeButDuties (n : Nat) (i : Instr) :
    AlikeButDuties (issueDuringPause n i s) (issueDuringPause n i (s.withHost h)) := by
  rw [issueDuringPause, issueDuringPause, State.withHost_host, hscanning]
  split
  · exact .refused _
  · exact issue_alikeButDuties (s := s.withHost (s.host.elapse n)) (h := h.elapse n) hpending hscanning i

theorem runAction_alikeButDuties (a : HostAction) : AlikeButDuties (runAction a s) (runAction a (s.withHost h)) := by
  cases a with
  | reset c =>
    rw [runAction, runAction, State.resetTo_withHost hpending]
    exact .refl _
  | issue tx =>
    exact issue_alikeButDuties (s := s.withHost s.host.finishPause) (h := h.finishPause) hpending rfl (decode tx)
  | duringPause n tx => exact issueDuringPause_alikeButDuties hpending hscanning n (decode tx)
  | wait n => exact .next s hpending rfl
  | waitMuxDelay => exact .next s hpending rfl

theorem step_alikeButDuties : AlikeButDuties (step s) (step (s.withHost h)) := by
  cases hactions : s.host.pending with
  | nil =>
    rw [step_eq, step_eq, State.withHost_host, hpending, hactions]
    exact .next s (h := s.host) hpending hscanning
  | cons a rest =>
    rw [step_of_pending hactions, step_of_pending (s := s.withHost h) (hpending.trans hactions)]
    exact runAction_alikeButDuties (s := s.withHost { s.host with pending := rest }) (h := { h with pending := rest })
      rfl hscanning a

end

/-- Settles O47: the two steps are alike, action by action. -/
theorem brokenDutiesNeverReachTheBlock : Obligations.BrokenDutiesNeverReachTheBlock := by
  intro s h hpending hscanning
  have halike := step_alikeButDuties hpending hscanning
  generalize step s = o, step (s.withHost h) = o' at halike ⊢
  cases halike with
  | next t hpending' hscanning' =>
    refine ⟨fun u hu => ?_, by simp, by simp⟩
    obtain rfl := Host.Outcome.next.inj hu
    exact ⟨_, rfl, rfl, hpending', hscanning'⟩
  | fault f => exact ⟨by simp, fun _ hf => hf, by simp⟩
  | refused r => exact ⟨by simp, by simp, fun _ hr => hr⟩

/-! The outcomes of a command and of a step. -/

/-- R75, R76: every code a command writes stands for something. -/
theorem exec_keeps_codesLegal {i : Instr} {s t : State} (hlegal : s.CodesLegal) (h : exec i s = .next t) :
    t.CodesLegal := by
  cases i with
  | nop => cases h; exact hlegal
  | muxStep g => cases exec_writeMap h <;> exact hlegal
  | muxAdv =>
    obtain ⟨hphase, hlatched, hevent⟩ := hlegal
    cases (exec_muxAdv_of_legal ((phaseOf_isSome_iff _).1 hphase)).symm.trans h
    exact ⟨(phaseOf_isSome_iff _).2 (State.moveTo_phase_lt ..), hlatched, hevent⟩
  | keyScan keyN =>
    obtain ⟨hphase, -, -⟩ := hlegal
    obtain ⟨l, -, rfl⟩ := exec_keyScan_inv h
    exact ⟨hphase, by simp, by simp⟩

/-- Settles O45: a command faults only where it reads an unreachable code, and writes none. -/
theorem noCommandRaisesAnException : Obligations.NoCommandRaisesAnException := by
  intro i s hlegal
  obtain ⟨t, ht⟩ := exec_next_of_codesLegal hlegal i
  exact ⟨t, ht, exec_keeps_codesLegal hlegal ht⟩

theorem issue_of_exec {i : Instr} {s v : State} (h : exec i s = .next v) :
    issue i s = .next (v.withHost (noteAfter i (v.withHost (noteBefore i s)))) := by
  rw [issue_eq, h, andThen_next]

/-- What an issued command that answers leaves: the block as the command leaves it, between the two notes. -/
theorem issue_inv {i : Instr} {s t : State} (h : issue i s = .next t) :
    ∃ v, exec i s = .next v ∧ t = v.withHost (noteAfter i (v.withHost (noteBefore i s))) := by
  cases hexec : exec i s with
  | next v => exact ⟨v, rfl, Host.Outcome.next.inj (h.symm.trans (issue_of_exec hexec))⟩
  | fault f => rw [issue_eq, hexec] at h; cases h
  | refused r => rw [issue_eq, hexec] at h; cases h

theorem issue_next_of_codesLegal {s : State} (h : s.CodesLegal) (i : Instr) : ∃ t, issue i s = .next t := by
  obtain ⟨v, hv⟩ := exec_next_of_codesLegal h i
  exact ⟨_, issue_of_exec hv⟩

/-- R71: the word 11 is the Key Scanner's. -/
theorem isKeyCommand_decode_iff (tx : Transaction) : isKeyCommand (decode tx) = true ↔ tx.cmd = 0b11#2 := by
  obtain ⟨w, g, keyN⟩ := tx
  obtain rfl | rfl | rfl | rfl := command_word_cases w <;> simp [decode, isKeyCommand]

/-- The state in which the host acts in a pause, at least `n` microseconds on: the action is taken from the list, and
the pause goes on (R256). -/
def State.actingInPause (n : Nat) (rest : List HostAction) (s : State) : State :=
  s.withHost (({ s.host with pending := rest } : HostSide).elapse n)

theorem step_issue_eq {s : State} {tx : Transaction} {rest : List HostAction}
    (hpending : s.host.pending = .issue tx :: rest) : step s = issue (decode tx) (s.acting rest) :=
  step_of_pending hpending

/-- R206, I14: in the pause a KEY command is refused; any other command, and any command with no pause in progress, is
issued. -/
theorem step_duringPause_cases {s : State} {n : Nat} {tx : Transaction} {rest : List HostAction}
    (hpending : s.host.pending = .duringPause n tx :: rest) :
    (tx.cmd = 0b11#2 ∧ s.host.scanning = true ∧ step s = .refused .protocolViolation) ∨
    (¬ (tx.cmd = 0b11#2 ∧ s.host.scanning = true) ∧ step s = issue (decode tx) (s.actingInPause n rest)) := by
  rw [step_of_pending hpending, runAction, issueDuringPause]
  simp only [Bool.and_eq_true, isKeyCommand_decode_iff, State.withHost_host]
  split
  next hreentry => exact .inl ⟨hreentry.1, hreentry.2, rfl⟩
  next hallowed => exact .inr ⟨hallowed, rfl⟩

/-- Settles O46: a reset and a re-entry are the only actions that can stop, each by its own refusal. -/
theorem stepOutcomesAreClosed : Obligations.StepOutcomesAreClosed := by
  intro s hlegal
  cases hpending : s.host.pending with
  | nil => exact .inl ⟨s, by rw [step_eq, hpending]⟩
  | cons a rest =>
    cases a with
    | reset c =>
      rw [step_of_pending hpending]
      obtain ⟨-, e⟩ | ⟨hbad, e⟩ := State.resetTo_cases c (s.withHost { s.host with pending := rest })
      · exact .inl ⟨_, e⟩
      · exact .inr (.inl ⟨e, c, rest, rfl, hbad⟩)
    | issue tx =>
      rw [step_issue_eq hpending]
      exact .inl (issue_next_of_codesLegal (s := s.acting rest) hlegal _)
    | duringPause n tx =>
      obtain ⟨hword, hscanning, e⟩ | ⟨-, e⟩ := step_duringPause_cases hpending
      · exact .inr (.inr ⟨e, n, tx, rest, rfl, hword, hscanning⟩)
      · rw [e]
        exact .inl (issue_next_of_codesLegal (s := s.actingInPause n rest) hlegal _)
    | wait n => exact .inl ⟨_, step_wait hpending (.inl rfl)⟩
    | waitMuxDelay => exact .inl ⟨_, step_wait hpending (.inr ⟨rfl, rfl⟩)⟩

/-! Re-entry of the scanner. -/

/-- R214: a step that does not stop takes one action and leaves those after it. -/
theorem step_pending {s t : State} {a : HostAction} {rest : List HostAction} (hpending : s.host.pending = a :: rest)
    (hstep : step s = .next t) : t.host.pending = rest := by
  rw [step_of_pending hpending] at hstep
  cases a with
  | reset c =>
    cases State.eq_constructed_of_resetTo hstep
    rfl
  | issue tx =>
    obtain ⟨v, -, rfl⟩ := issue_inv hstep
    simp
  | duringPause n tx =>
    obtain ⟨v, -, rfl⟩ := issue_inv (issue_of_issueDuringPause hstep)
    simp
  | wait n => cases hstep; rfl
  | waitMuxDelay => cases hstep; rfl

/-- R75: a command that is not the Key Scanner's reads no code but PHASE's. -/
theorem exec_next_of_phase_lt {i : Instr} {s : State} (hi : isKeyCommand i = false) (h : s.phase.toNat < 10) :
    ∃ v, exec i s = .next v := by
  cases i with
  | nop => exact ⟨_, exec_nop s⟩
  | muxStep g =>
    obtain ⟨v, hv, -⟩ := exec_muxStep_returns g h
    exact ⟨v, hv⟩
  | muxAdv => exact ⟨_, exec_muxAdv_of_legal h⟩
  | keyScan keyN => cases hi

/-- R206, I14. -/
theorem step_reentry {s : State} {n : Nat} {tx : Transaction} {rest : List HostAction}
    (hpending : s.host.pending = .duringPause n tx :: rest) (hword : tx.cmd = 0b11#2)
    (hscanning : s.host.scanning = true) : step s = .refused .protocolViolation := by
  obtain ⟨-, -, e⟩ | ⟨hallowed, -⟩ := step_duringPause_cases hpending
  · exact e
  · exact absurd ⟨hword, hscanning⟩ hallowed

/-- R256: a command that is not the Key Scanner's has its own effect in the pause, and the pause goes on. -/
theorem step_duringPause {s : State} {n : Nat} {tx : Transaction} {rest : List HostAction}
    (hpending : s.host.pending = .duringPause n tx :: rest) (hword : tx.cmd ≠ 0b11#2) (hphase : s.phase.toNat < 10) :
    ∃ u v : State, step s = .next u ∧ exec (decode tx) s = .next v ∧ v.SameButHost u ∧
      u.host.pending = rest ∧ u.host.scanning = s.host.scanning := by
  obtain ⟨hkey, -, -⟩ | ⟨-, e⟩ := step_duringPause_cases hpending
  · exact absurd hkey hword
  have hother : isKeyCommand (decode tx) = false := by rwa [← Bool.not_eq_true, isKeyCommand_decode_iff]
  obtain ⟨v, hv⟩ := exec_next_of_phase_lt hother hphase
  have hv' : exec (decode tx) (s.actingInPause n rest) = .next (v.withHost (s.actingInPause n rest).host) := by
    rw [State.actingInPause, exec_withHost, hv, andThen_next]
    rfl
  have hu := e.trans (issue_of_exec hv')
  obtain ⟨-, hgoesOn, -⟩ := debouncePauseBeginsAndEnds s _ _ rest hpending hu
  obtain ⟨hscanning, -⟩ := hgoesOn n tx rfl hword
  exact ⟨_, v, hu, hv, rfl, step_pending hpending hu, hscanning⟩

/-- R141, R206: a scan that confirms a press, with T_DEBOUNCE above 0, is followed by its pause. -/
theorem step_confirmingScan {s : State} {keyN : BitVec 4} {k : Key} {rest : List HostAction}
    (hpending : s.host.pending = .issue (encode (.keyScan keyN)) :: rest) (hlatched : s.latched = keyCode none)
    (hpressed : firstPressed keyN = some k) (hdebounce : s.tDebounce ≠ 0) :
    ∃ t : State, step s = .next t ∧ t.host.pending = rest ∧ t.host.scanning = true ∧ t.phase = s.phase := by
  have ht := step_issue hpending (exec_keyScan_eq hlatched keyN)
  obtain ⟨hbegins, -, -⟩ := debouncePauseBeginsAndEnds s _ _ rest hpending ht
  obtain ⟨-, hscanning⟩ := hbegins _ (.inl rfl) rfl
  refine ⟨_, ht, step_pending hpending ht, hscanning.2 ?_, rfl⟩
  simpa [State.scanned, hpressed] using hdebounce

theorem steps_succ_of_refused {s : State} {r : Refusal} (h : step s = .refused r) (k : Nat) :
    steps (k + 1) s = .refused r := by
  rw [steps, h, andThen_refused]

/-- Settles O48: the confirming scan's pause is still in progress at the second scan, for a command between them that is
not the Key Scanner's lets it go on. -/
theorem reentryDuringThePauseIsRefused : Obligations.ReentryDuringThePauseIsRefused := by
  refine ⟨fun s n tx rest hpending => ⟨step_reentry hpending, fun hword hphase => ?_⟩,
    fun s keyN keyN' k m n tx rest hlatched hpressed hdebounce =>
      ⟨fun hpending => ?_, fun hpending hword hphase => ?_⟩⟩
  · obtain ⟨u, v, hu, hv, hsame, -⟩ := step_duringPause hpending hword hphase
    exact ⟨u, v, hu, hv, hsame⟩
  · obtain ⟨t, ht, htpending, hscanning, -⟩ := step_confirmingScan hpending hlatched hpressed hdebounce
    rw [steps_succ_of_step ht]
    exact steps_succ_of_refused (step_reentry htpending rfl hscanning) 0
  · obtain ⟨t, ht, htpending, hscanning, htphase⟩ := step_confirmingScan hpending hlatched hpressed hdebounce
    obtain ⟨u, -, hu, -, -, hupending, hgoesOn⟩ := step_duringPause htpending hword (htphase ▸ hphase)
    rw [steps_succ_of_step ht, steps_succ_of_step hu]
    exact steps_succ_of_refused (step_reentry hupending rfl (hgoesOn.trans hscanning)) 0

/-! Marks. -/

@[simp] theorem noteAfter_violations (i : Instr) (s : State) : (noteAfter i s).violations = s.host.violations := by
  cases i <;> rfl
@[simp] theorem noteAfter_advNext (i : Instr) (s : State) : (noteAfter i s).advNext = s.host.advNext := by
  cases i <;> rfl
@[simp] theorem noteAfter_digitGlyph (i : Instr) (s : State) : (noteAfter i s).digitGlyph = s.host.digitGlyph := by
  cases i <;> rfl

theorem decode_eq_muxStep {tx : Transaction} (h : tx.cmd = 0b01#2) : decode tx = .muxStep tx.glyph := by
  obtain ⟨w, g, keyN⟩ := tx
  cases h
  rfl

theorem decode_eq_muxAdv {tx : Transaction} (h : tx.cmd = 0b10#2) : decode tx = .muxAdv := by
  obtain ⟨w, g, keyN⟩ := tx
  cases h
  rfl

theorem decode_eq_keyScan {tx : Transaction} (h : tx.cmd = 0b11#2) : decode tx = .keyScan tx.keyN := by
  obtain ⟨w, g, keyN⟩ := tx
  cases h
  rfl

/-- R75: a code below eight is that of a Serializing phase, and no other is. -/
theorem phaseOf_serializing_iff (c : BitVec 4) : (∃ b, phaseOf c = some (.serializing b)) ↔ c.toNat < 8 :=
  ⟨fun ⟨_, hb⟩ => toNat_lt_of_phaseOf_serializing hb,
    fun hlt => ⟨_, (congrArg phaseOf (serializing_of_lt hlt)).trans (phaseOf_serializing _)⟩⟩

/-- R260: when a MUX.STEP serializes another byte than the digit's first. -/
theorem glyphChanged_iff (g : Glyphs) (s : State) :
    glyphChanged g s = true ↔
      s.phase.toNat < 8 ∧ ∃ x, s.host.digitGlyph = some x ∧ x ≠ glyphAt g s.slot := by
  rw [← phaseOf_serializing_iff, glyphChanged]
  split
  next b x hphase hx => simp [hphase, hx]
  next hneither =>
    simp only [Bool.false_eq_true, false_iff]
    rintro ⟨⟨b, hphase⟩, x, hx, -⟩
    exact hneither b x hphase hx

/-- R260: the digit's byte is recorded at its first Serializing step, and kept by every MUX.STEP after it. -/
theorem digitGlyphAfterStep_eq (g : Glyphs) (s : State) :
    digitGlyphAfterStep g s =
      if s.phase.toNat < 8 then some (s.host.digitGlyph.getD (glyphAt g s.slot)) else s.host.digitGlyph := by
  split
  next hlt =>
    obtain ⟨b, hphase⟩ := (phaseOf_serializing_iff _).2 hlt
    cases hglyph : s.host.digitGlyph <;> simp [digitGlyphAfterStep, hphase, hglyph]
  next hge =>
    rw [digitGlyphAfterStep]
    split
    next hphase _ => exact absurd (toNat_lt_of_phaseOf_serializing hphase) hge
    next => rfl

theorem digitGlyphAfterAdv_eq (s : State) :
    digitGlyphAfterAdv s = if s.phase = 0b1001#4 then none else s.host.digitGlyph := by
  simp only [digitGlyphAfterAdv, phaseOf_eq_settled_iff]

section
variable {s t : State}

/-- R254, R255: the record after a MUX.ADV. -/
theorem issue_muxAdv_record (h : issue .muxAdv s = .next t) :
    t.host.violations = s.host.violations ++
      (if s.host.owed ≠ 0 then [.minimumDelay] else []) ++
      (if s.host.advNext = false then [.alternation] else []) ∧
    t.host.owed = 0 ∧ t.host.advNext = false ∧
    t.host.digitGlyph = (if s.phase = 0b1001#4 then none else s.host.digitGlyph) := by
  obtain ⟨v, -, rfl⟩ := issue_inv h
  refine ⟨?_, rfl, rfl, digitGlyphAfterAdv_eq s⟩
  simp [noteBefore_violations]

/-- R254, R255, R260: the record after a MUX.STEP. -/
theorem issue_muxStep_record {g : Glyphs} (h : issue (.muxStep g) s = .next t) :
    t.host.violations = s.host.violations ++
      (if s.host.owed ≠ 0 then [.minimumDelay] else []) ++
      (if s.host.advNext = true then [.alternation] else []) ++
      (if s.phase.toNat < 8 ∧ ∃ x, s.host.digitGlyph = some x ∧ x ≠ glyphAt g s.slot then [.glyphStability] else []) ∧
    t.host.owed = t.muxDelay ∧ t.host.pause = 0 ∧ t.host.advNext = true ∧
    t.host.digitGlyph =
      (if s.phase.toNat < 8 then some (s.host.digitGlyph.getD (glyphAt g s.slot)) else s.host.digitGlyph) := by
  obtain ⟨v, -, rfl⟩ := issue_inv h
  refine ⟨?_, rfl, rfl, rfl, digitGlyphAfterStep_eq g s⟩
  simp [noteBefore_violations, glyphChanged_iff]

/-- R203: a NOP and a KEY.SCAN are marked for nothing and touch no duty of the multiplexer. -/
theorem issue_record_of_not_mux {i : Instr} (hi : i = .nop ∨ ∃ keyN, i = .keyScan keyN) (h : issue i s = .next t) :
    t.host.violations = s.host.violations ∧ t.host.advNext = s.host.advNext ∧ t.host.owed = s.host.owed ∧
      t.host.digitGlyph = s.host.digitGlyph := by
  obtain ⟨v, -, rfl⟩ := issue_inv h
  obtain rfl | ⟨keyN, rfl⟩ := hi <;> exact ⟨rfl, rfl, rfl, rfl⟩

/-- R59, R256: both ways of issuing a command that answers take the time counted as passed off what is owed, and leave
the rest of the record that its marks are read from. -/
theorem issue_of_step {tx : Transaction} {rest : List HostAction} {passed : Nat}
    (hpending : (s.host.pending = .issue tx :: rest ∧ passed = s.host.pause) ∨
      s.host.pending = .duringPause passed tx :: rest) (hstep : step s = .next t) :
    ∃ h : HostSide, issue (decode tx) (s.withHost h) = .next t ∧ h.owed = s.host.owed - passed ∧
      h.advNext = s.host.advNext ∧ h.digitGlyph = s.host.digitGlyph ∧ h.violations = s.host.violations := by
  obtain ⟨hissue, rfl⟩ | hduring := hpending
  · rw [step_issue_eq hissue] at hstep
    exact ⟨_, hstep, rfl, rfl, rfl, rfl⟩
  · obtain ⟨-, -, e⟩ | ⟨-, e⟩ := step_duringPause_cases hduring
    · cases e.symm.trans hstep
    · exact ⟨_, e.symm.trans hstep, rfl, rfl, rfl, rfl⟩

end

/-- Settles O50: for either way of issuing, the record is that of the command issued with the time passed taken off. -/
theorem brokenMuxDutiesAreMarked : Obligations.BrokenMuxDutiesAreMarked := by
  intro s t tx rest passed hpending hstep
  obtain ⟨h, hissue, howed, hturn, hglyph, hmarks⟩ := issue_of_step hpending hstep
  rw [← howed, ← hturn, ← hglyph, ← hmarks]
  refine ⟨fun hword => ?_, fun hword => ?_, fun hword => ?_⟩
  · rw [decode_eq_muxAdv hword] at hissue
    exact issue_muxAdv_record hissue
  · rw [decode_eq_muxStep hword] at hissue
    exact issue_muxStep_record hissue
  · exact issue_record_of_not_mux (hword.imp decode_eq_nop fun hscan => ⟨_, decode_eq_keyScan hscan⟩) hissue

/-! What the platform shows. -/

/-- R115: stage i of a register that holds a byte is its bit i. -/
theorem Stages.at_ofByte (v : Byte) (i : BitIdx) : (Stages.ofByte v).at i = some (v.getLsbD i.code.toNat) := by
  obtain ⟨⟨⟨n, hn⟩⟩⟩ := i
  interval_cases n <;> rfl

/-- R212: what a segment reads as is read off the output stage. -/
theorem State.segmentOn_congr {s t : State} (p : Platform) (seg : Segment) (h : t.dev.out = s.dev.out) :
    t.segmentOn p seg = s.segmentOn p seg := by
  rw [State.segmentOn, h, State.segmentOn]

theorem State.segmentOn_of_byte {s : State} {v : Byte} (p : Platform) (seg : Segment)
    (h : s.dev.out = Stages.ofByte v) :
    s.segmentOn p seg = some (v.getLsbD (p.segStage seg).code.toNat == p.segOnLevel) := by
  rw [State.segmentOn, h, Stages.at_ofByte, Option.map_some]

/-- Settles O56: the Latching step raises the shift-clock, selects the slot, and copies the register only where the
latch-clock rises. -/
theorem latchedDigitIsWhatThePlatformShows : Obligations.LatchedDigitIsWhatThePlatformShows := by
  intro p s g seg hlatching
  refine ⟨latchStep s, exec_muxStep_latching g hlatching, congrArg p.digitMap (latchStep_sel s), fun v hlow hbyte => ?_,
    fun hhigh => ?_⟩
  · have hout : (latchStep s).dev.out = s.risenSr := by simp [latchStep_out, latchStep_sr, hlow]
    exact State.segmentOn_of_byte p seg (hout.trans hbyte)
  · exact State.segmentOn_congr p seg (by simp [latchStep_out, hhigh])

end Sys2Proof.Machine
end

section
/-! Reset and hazards (70_reset_and_hazards.md, R250 to R262): what a reset leaves or refuses, and the mark of a glyph
changed within a digit. -/

namespace Sys2Proof.Machine

/-- Settles O40: the reset the host takes answers by the construction alone. -/
theorem resetConstructsOrRefuses : Obligations.ResetConstructsOrRefuses := by
  intro s c rest hpending
  rw [step_of_pending hpending, runAction]
  obtain ⟨hgood, e⟩ | ⟨hbad, e⟩ := State.resetTo_cases c (s.withHost { s.host with pending := rest })
  · exact ⟨fun _ => ⟨_, e, by simp [State.constructed, phaseCode, keyCode]⟩, fun hbad => absurd hgood hbad.not_gt⟩
  · exact ⟨fun hgood => absurd hgood hbad.not_gt, fun _ => e⟩

/-- R72: a MUX.STEP's glyph port holds its operand. -/
@[simp] theorem encode_muxStep_glyph (g : Glyphs) : (encode (.muxStep g)).glyph = g := rfl

/-- R260: the record after a Serializing step by a host that owes nothing and is in turn. Of the three duties only that
of the glyph can be broken. -/
theorem step_serializing_record {s : State} {g : Glyphs} {rest : List HostAction}
    (hpending : s.host.pending = asmStep g :: rest) (hphase : s.phase.toNat < 8) (howed : s.host.owed = 0)
    (hturn : s.host.advNext = false) :
    ∃ t : State, step s = .next t ∧
      t.host.digitGlyph = some (s.host.digitGlyph.getD (g.get s.slot.code.toFin)) ∧
      t.host.violations = s.host.violations ++
        (if ∃ x, s.host.digitGlyph = some x ∧ x ≠ g.get s.slot.code.toFin then [.glyphStability] else []) := by
  have ht := step_issue hpending (exec_muxStep_serializing g (serializing_of_lt hphase))
  obtain ⟨-, hrecord, -⟩ := brokenMuxDutiesAreMarked s _ _ rest _ (.inl ⟨hpending, rfl⟩) ht
  obtain ⟨hmarks, -, -, -, hglyph⟩ := hrecord rfl
  exact ⟨_, ht, hglyph.trans (if_pos hphase), hmarks.trans (by simp [howed, hturn, hphase])⟩

/-- Settles O51: a digit's byte once recorded is the one compared, and a digit not begun has none to compare. -/
theorem changedGlyphsAreMarked : Obligations.ChangedGlyphsAreMarked := by
  intro s g rest x hpending hphase howed hturn
  obtain ⟨t, ht, hglyph, hmarks⟩ := step_serializing_record hpending hphase howed hturn
  refine ⟨t, ht, fun hbegun => ?_, fun hfresh => ?_⟩
  · exact ⟨by simp [hglyph, hbegun], by simp [hmarks, hbegun]⟩
  · exact ⟨by simp [hglyph, hfresh], by simp [hmarks, hfresh]⟩

end Sys2Proof.Machine
end

section
/-! The words of the commands and the step that runs the command decoded (30_encoding.md, R70, R71; 20_memory.md, R59),
the codes of PHASE and of the key registers, and the faults of the codes that stand for nothing (R75, R76). -/

namespace Sys2Proof.Machine

/-- R70: a number below four is a command word. -/
theorem transactionOfWord_of_lt {w : Nat} (h : w < 4) :
    transactionOfWord w = .ok ⟨BitVec.ofNat 2 w, idleGlyphs, 0#4⟩ := by
  rw [transactionOfWord, wordOfNat, if_pos h]
  rfl

/-- R70, log entry 13. -/
theorem transactionOfWord_of_le {w : Nat} (h : 4 ≤ w) : transactionOfWord w = .error .notACommandWord := by
  rw [transactionOfWord, wordOfNat, if_neg h.not_gt]
  rfl

/-- R71, log entry 13: a table word below four is read with both operand ports at zero. -/
theorem decodeTableWord_of_lt {n w : Nat} (hword : w < 4) (hfits : w < 2 ^ n) :
    decodeTableWord n w = some (decode ⟨BitVec.ofNat 2 w, idleGlyphs, 0#4⟩) := by
  rw [decodeTableWord, Nat.mod_eq_of_lt hfits, transactionOfWord_of_lt hword]

/-- Settles O1: a table word is read as the transaction with its two bits and both ports at zero. -/
theorem eachWordSelectsItsCommand : Obligations.EachWordSelectsItsCommand := by
  refine ⟨fun g k => ⟨decode_eq_nop rfl, decode_eq_muxStep rfl, decode_eq_muxAdv rfl, decode_eq_keyScan rfl⟩,
    ?_, ?_, ?_, ?_⟩ <;> rw [decodeTableWord_of_lt (by decide) (by decide)]
  · rw [decode_eq_nop rfl]
  · rw [decode_eq_muxStep rfl]
  · rw [decode_eq_muxAdv rfl]
  · rw [decode_eq_keyScan rfl]

/-- Settles O2: a number above 3 makes no transaction, neither to decode nor to place. -/
theorem numbersAboveThreeAreNoCommand : Obligations.NumbersAboveThreeAreNoCommand := by
  intro s n w habove hfits
  have hnone : transactionOfWord (w % 2 ^ n) = .error .notACommandWord := by
    rw [Nat.mod_eq_of_lt hfits, transactionOfWord_of_le habove]
  exact ⟨by rw [decodeTableWord, hnone], by rw [State.withFetchWord, placeWord, hnone]⟩

/-- Settles O7: both ways of issuing come to one command between the two notes of the record. -/
theorem stepRunsTheDecodedCommand : Obligations.StepRunsTheDecodedCommand := by
  refine fun s tx n rest => ⟨?_, ?_⟩
  · rintro hpending u rfl
    rw [step_issue_eq hpending]
    rfl
  · rintro hpending hallowed u rfl
    obtain ⟨hword, hscanning, -⟩ | ⟨-, e⟩ := step_duringPause_cases hpending
    · simp [hword, hscanning] at hallowed
    · rw [e]
      rfl

/-- R75: the codes that stand for no phase. -/
theorem phaseOf_eq_none_iff (c : BitVec 4) : phaseOf c = none ↔ 10 ≤ c.toNat := by
  rw [← Option.not_isSome_iff_eq_none, phaseOf_isSome_iff, Nat.not_lt]

/-- Settles O4. -/
theorem phaseCodesAreTheTable : Obligations.PhaseCodesAreTheTable :=
  ⟨fun b => ⟨phaseOf_serializing b, phaseCode_serializing ⟨b⟩⟩, phaseOf_latching, rfl, phaseOf_settled, rfl,
    fun c => (phaseOf_eq_none_iff c).2⟩

/-- R76: the codes that stand for nothing. -/
theorem keyOf_eq_none_iff (c : BitVec 3) : keyOf c = none ↔ 1 ≤ c.toNat ∧ c.toNat ≤ 3 := by
  revert c; decide

/-- Settles O5: a legal code is that of its value, and the codes 001 to 011 are the others. -/
theorem keyCodesAreTheTable : Obligations.KeyCodesAreTheTable :=
  ⟨keyOf_keyCode none, keyOf_keyCode (some .s2), keyOf_keyCode (some .s3), keyOf_keyCode (some .s4),
    keyOf_keyCode (some .s5), (keyOf_eq_none_iff _).2 (by decide), (keyOf_eq_none_iff _).2 (by decide),
    (keyOf_eq_none_iff _).2 (by decide), keyOf_keyCode⟩

/-- Settles O27: both commands read PHASE first. -/
theorem unreachablePhaseFaults : Obligations.UnreachablePhaseFaults := by
  intro s g hcode
  have hnone : phaseOf s.phase = none := (phaseOf_eq_none_iff _).2 hcode
  exact ⟨by simp only [exec, execMuxStep, hnone], by simp only [exec, execMuxAdv, hnone]⟩

/-- Settles O28: the scan reads LATCHED first. -/
theorem unreachableLatchedCodeFaults : Obligations.UnreachableLatchedCodeFaults := by
  intro s keyN hlow hhigh
  have hnone : keyOf s.latched = none := (keyOf_eq_none_iff _).2 ⟨hlow, hhigh⟩
  simp only [exec, execKeyScan, hnone]

end Sys2Proof.Machine
end

section
/-! The shift register and its output stage under one MUX.STEP (60_exceptions.md, R210, R211, R259). -/

namespace Sys2Proof.Machine

/-- R210: a register that shifts on rising edges moves once in a Serializing step, where the shift-clock was low, and
takes the level DATA held before the step. -/
theorem State.shiftBit_sr_of_rising {s : State} (h : s.shiftEdge = .rising) (v : Level) :
    (s.shiftBit v).dev.sr = if s.sck then s.dev.sr else s.dev.sr.shiftIn s.data := by
  cases hsck : s.sck <;> simp [State.shiftBit, Devices.see_sck_sr, edgeOf, h, hsck]

/-- R210: a register that shifts on falling edges takes the bit that the step drove. -/
theorem State.shiftBit_sr_of_falling {s : State} (h : s.shiftEdge = .falling) (v : Level) :
    (s.shiftBit v).dev.sr = s.dev.sr.shiftIn v := by
  cases hsck : s.sck <;> simp [State.shiftBit, Devices.see_sck_sr, edgeOf, h, hsck]

/-- R211: a Settled step lowers the latch-clock, and no device moves. -/
@[simp] theorem settleStep_dev (s : State) : (settleStep s).dev = s.dev := by
  simp [settleStep]

/-- Settles O10: the three cases of MUX.STEP, the Serializing one by the edge on which the register shifts. -/
theorem stepMovesTheRegisterOnItsEdges : Obligations.StepMovesTheRegisterOnItsEdges := by
  refine fun s g => ⟨fun b hb => ?_, fun hlatching => ?_, fun hsettled => ?_⟩
  · refine ⟨_, exec_muxStep_serializing g hb, State.shiftBit_out s _, ?_⟩
    rw [serializeStep_eq_shiftBit]
    cases hedge : s.shiftEdge with
    | rising => exact State.shiftBit_sr_of_rising hedge _
    | falling => exact State.shiftBit_sr_of_falling hedge _
  · exact ⟨_, exec_muxStep_latching g hlatching, latchStep_sr s, latchStep_out s⟩
  · exact ⟨_, exec_muxStep_settled g hsettled, settleStep_dev s⟩

end Sys2Proof.Machine
end

section
/-! Reset and the invariant (10_state.md, R33, R40; 70_reset_and_hazards.md, R250, R252): what every reset establishes,
every step keeps. -/

namespace Sys2Proof.Machine

/-- R250, log entry 3. -/
theorem State.constructed_commonSetup : State.constructed Config.commonSetup .rising [] = State.reset := rfl

/-- Settles O41: every field is the constructed state's. -/
theorem resetRestartsTheEnvironment : Obligations.ResetRestartsTheEnvironment := by
  intro s t c rest hpending hstep
  rw [step_of_pending hpending, runAction] at hstep
  cases State.eq_constructed_of_resetTo hstep
  simp [State.constructed, unknownDevices, Stages.unknown, HostSide.fresh]

/-- Settles O42. -/
theorem resetStateIsAConstruction : Obligations.ResetStateIsAConstruction := by
  intro s hedge hpending
  obtain ⟨-, e⟩ | ⟨hbad, -⟩ := State.resetTo_cases Config.commonSetup s
  · rw [e, hedge, hpending, State.constructed_commonSetup]
  · exact absurd hbad (by decide)

/-- R33, R201, R250: with a well formed construction, an empty trace and empty returns agree with the registers. -/
theorem State.constructed_inv {c : Construction} (h : c.pCfg > 9 * c.tShift) (edge : Edge) (pending : List HostAction) :
    (State.constructed c edge pending).Inv := by
  have hcodes : (State.constructed c edge pending).CodesLegal :=
    ⟨by simp [State.constructed], by simp [State.constructed], by simp [State.constructed]⟩
  exact ⟨hcodes, ⟨h, rfl⟩, ⟨rfl, nofun⟩, ⟨rfl, nofun, .inl rfl⟩, rfl⟩

theorem State.resetTo_inv {c : Construction} {s t : State} (h : s.resetTo c = .next t) : t.Inv := by
  obtain ⟨hperiod, e⟩ | ⟨-, e⟩ := State.resetTo_cases c s <;> cases e.symm.trans h
  exact State.constructed_inv hperiod _ _

/-- Settles O43: State.reset is a construction, and a reset that is not refused leaves one. -/
theorem resetMeetsTheInvariant : Obligations.ResetMeetsTheInvariant := by
  refine ⟨?_, fun c s t => State.resetTo_inv⟩
  rw [← State.constructed_commonSetup]
  exact State.constructed_inv (by decide) _ _

/-- R58: a line event is no result. -/
theorem State.DelaysAgree.emit {s : State} (h : s.DelaysAgree) (e : LineEvent) : (s.emit e).DelaysAgree := h

/-- R27: a MUX.STEP's result keeps MUX_DELAY and the results so far in agreement. -/
theorem State.DelaysAgree.returnDelay {s : State} (h : s.DelaysAgree) {d : Nat} (hd : d = s.tShift ∨ d = s.settle) :
    (s.returnDelay d).DelaysAgree := by
  obtain ⟨-, hall⟩ := h
  refine ⟨by simp, fun d' hd' => ?_⟩
  rw [State.returnDelay_muxReturns, List.mem_append, List.mem_singleton] at hd'
  obtain hold | rfl := hd'
  · exact hall d' hold
  · exact hd

/-- R27, R110: only MUX.STEP writes what DelaysAgree reads, and it returns T_SHIFT or SETTLE. -/
theorem exec_keeps_delaysAgree {i : Instr} {s t : State} (hdelays : s.DelaysAgree) (h : exec i s = .next t) :
    t.DelaysAgree := by
  cases i with
  | muxStep g =>
    obtain ⟨b, -, e⟩ | ⟨-, e⟩ | ⟨-, e⟩ | ⟨-, e⟩ := execMuxStep_cases g s <;> cases e.symm.trans h
    · exact (((hdelays.emit _).emit _).emit _).returnDelay (.inl rfl)
    · exact (((hdelays.emit _).emit _).emit _).returnDelay (.inl rfl)
    · exact (hdelays.emit _).returnDelay (.inr rfl)
  | _ => cases exec_writeMap h <;> exact hdelays

/-- R141, R148: a scan's registers, its result and its latch agree. -/
theorem State.ScansAgree.scanned {s : State} (h : s.ScansAgree) (l : Option Key) (keyN : BitVec 4) :
    (s.scanned l keyN).ScansAgree := by
  obtain ⟨-, hwaits, -⟩ := h
  refine ⟨by simp [State.scanned], fun r hr => ?_, ?_⟩
  · rw [State.scanned_keyReturns, List.mem_append, List.mem_singleton] at hr
    obtain hold | rfl := hr
    · exact hwaits r hold
    · rfl
  · rw [State.scanned_keyEvt, State.scanned_latched]
    cases hevent : scanEvent l keyN with
    | none => exact .inl rfl
    | some k => exact .inr (congrArg keyCode (latchAfter_of_scanEvent hevent).symm)

/-- R29, R30: only KEY.SCAN writes what ScansAgree reads. -/
theorem exec_keeps_scansAgree {i : Instr} {s t : State} (hscans : s.ScansAgree) (h : exec i s = .next t) :
    t.ScansAgree := by
  cases i with
  | keyScan keyN =>
    obtain ⟨l, -, rfl⟩ := exec_keyScan_inv h
    exact hscans.scanned l keyN
  | _ => cases exec_writeMap h <;> exact hscans

/-- R58: only MUX.STEP writes lines, and it writes them as events. -/
theorem exec_keeps_traceAgrees {i : Instr} {s t : State} (htrace : s.TraceAgrees) (h : exec i s = .next t) :
    t.TraceAgrees := by
  cases i with
  | muxStep g =>
    obtain ⟨b, -, e⟩ | ⟨-, e⟩ | ⟨-, e⟩ | ⟨-, e⟩ := execMuxStep_cases g s <;> cases e.symm.trans h
    · exact State.emit_traceAgrees _ (State.emit_traceAgrees _ (State.emit_traceAgrees _ htrace))
    · exact State.emit_traceAgrees _ (State.emit_traceAgrees _ (State.emit_traceAgrees _ htrace))
    · exact State.emit_traceAgrees _ htrace
  | _ => cases exec_writeMap h <;> exact htrace

/-- Every command that answers keeps the invariant, part by part. -/
theorem exec_keeps_inv {i : Instr} {s t : State} (hinv : s.Inv) (h : exec i s = .next t) : t.Inv := by
  obtain ⟨hcodes, hconfig, hdelays, hscans, htrace⟩ := hinv
  obtain ⟨-, -, hperiod, hshift, hsettle, -⟩ := exec_frame h
  have hconfig' : t.ConfigLegal := by rwa [State.ConfigLegal, hperiod, hshift, hsettle]
  exact ⟨exec_keeps_codesLegal hcodes h, hconfig', exec_keeps_delaysAgree hdelays h, exec_keeps_scansAgree hscans h,
    exec_keeps_traceAgrees htrace h⟩

/-- The invariant speaks of the block and its environment, and the host's side is free. -/
theorem State.inv_withHost_iff (h : HostSide) (s : State) : (s.withHost h).Inv ↔ s.Inv := Iff.rfl

theorem issue_keeps_inv {i : Instr} {s t : State} (hinv : s.Inv) (h : issue i s = .next t) : t.Inv := by
  obtain ⟨v, hexec, rfl⟩ := issue_inv h
  exact (State.inv_withHost_iff _ _).2 (exec_keeps_inv hinv hexec)

/-- An action of the host constructs the block anew, issues a command, or lets time pass. -/
theorem runAction_keeps_inv {a : HostAction} {s t : State} (hinv : s.Inv) (h : runAction a s = .next t) : t.Inv := by
  cases a with
  | reset c => exact State.resetTo_inv h
  | issue tx => exact issue_keeps_inv ((State.inv_withHost_iff _ _).2 hinv) h
  | duringPause n tx => exact issue_keeps_inv ((State.inv_withHost_iff _ _).2 hinv) (issue_of_issueDuringPause h)
  | wait n => cases h; exact (State.inv_withHost_iff _ _).2 hinv
  | waitMuxDelay => cases h; exact (State.inv_withHost_iff _ _).2 hinv

/-- Settles O44: a step leaves the state, or runs one action on a state that differs in the pending list. -/
theorem everyStepKeepsTheInvariant : Obligations.EveryStepKeepsTheInvariant := by
  intro s t hinv hstep
  cases hpending : s.host.pending with
  | nil =>
    rw [step_eq, hpending] at hstep
    cases hstep
    exact hinv
  | cons a rest =>
    rw [step_of_pending hpending] at hstep
    exact runAction_keeps_inv ((State.inv_withHost_iff _ _).2 hinv) hstep

end Sys2Proof.Machine
end
